-- ==== Sys2Proof/Word.lean ====
section
/-! DEFINITION. The words of the flash-protocol engine: bytes and 16-bit addresses (00_scope.md R11). -/

namespace Sys2Proof

/-- A byte: an unsigned 8-bit value (R11). -/
abbrev Byte := BitVec 8

/-- An address of the device and of the image: an unsigned 16-bit value (R11, `ADDR_W` of R9). -/
abbrev Addr := BitVec 16

end Sys2Proof
end

