-- ==== Sys2Proof/Config.lean ====
section
/-! DEFINITION. The parameters of 00_scope.md R9: the fixed literals of the source, the variable ones as a structure of
plain data, its defaults, and the free value the model needs. -/

namespace Sys2Proof

/-! The fixed literals of R9 (ground "source"). -/

/-- `BLOCK` (R9): block size in bytes. -/
def Config.block : Nat := 64
/-- `READ_CMD` (R9). -/
def Config.readCmd : Byte := 0x01
/-- `CRC_CMD` (R9). -/
def Config.crcCmd : Byte := 0x03
/-- `WRITE_CMD` (R9). -/
def Config.writeCmd : Byte := 0x04
/-- `READ_LEN` (R9). -/
def Config.readLen : Byte := 0x04
/-- `CRC_LEN` (R9). -/
def Config.crcLen : Byte := 0x02
/-- `WRITE_LEN` (R9), the same under both padding policies (R107). -/
def Config.writeLen : Byte := 0x44
/-- `STATUS_OK` (R9, R66). -/
def Config.statusOk : Byte := 0x00
/-- `READ_RESP` (R9): length of the READ response. -/
def Config.readResp : Nat := 65
/-- `WRITE_RESP` (R9): length of the WRITE response. -/
def Config.writeResp : Nat := 1
/-- `CRC_RESP` (R9): length of the CRC response. -/
def Config.crcResp : Nat := 1
/-- `BAUD` (R9): the rate `Open` passes to the transport (R125). -/
def Config.baud : Nat := 57600
/-- `TICK` (R9) in milliseconds. No rule depends on it (R167). -/
def Config.tickMs : Nat := 1

/-- Byte 0 of an empty response. FREE VALUE (no body): the spec reads a status byte only from a response of 1 or 65
bytes, and gives an absent one "any value" (93_implementation_defined.md U2, 90_conflicts.md C5; log 8). -/
opaque Config.absentStatus : Byte

/-- Treatment of a short WRITE payload (R9, R107). -/
inductive RaggedPolicy where
  /-- `ZERO_PAD`: pad with `PAD_BYTE` to 64 bytes (the default). -/
  | zeroPad
  /-- `AS_IS`: send the short payload unchanged. -/
  | asIs
deriving DecidableEq, Repr

/-- The memory map (20_memory.md R44): six addresses, every range inclusive at both ends. -/
structure MemMap where
  appStart : Addr
  appEnd   : Addr
  crcStart : Addr
  crcEnd   : Addr
  nvmStart : Addr
  nvmEnd   : Addr
deriving DecidableEq, Repr

/-- The variable parameters of R9. -/
structure Config where
  /-- `FLAG`, the frame delimiter byte. -/
  flag : Byte
  /-- `ESC`, the escape byte. -/
  esc : Byte
  /-- `XMASK`, the XOR mask of an escaped byte. -/
  xmask : Byte
  /-- `ESCSET`, the escaped payload byte values: a set, so only membership is ever asked. -/
  escset : List Byte
  /-- `DROP_FIRST`: the wire form omits the encoder's first byte (R78). -/
  dropFirst : Bool
  /-- `RAGGED_POLICY` (R107). -/
  ragged : RaggedPolicy
  /-- `PAD_BYTE` (R107). -/
  padByte : Byte
  /-- `TIMEOUT_TICKS` (R92). -/
  timeoutTicks : Nat
  /-- `MAP` (R44). -/
  map : MemMap
  /-- `RX_CAPACITY`: `none` is the source's unbounded buffer (R91). -/
  rxCapacity : Option Nat
  /-- `HDATA_MAX` (R23). -/
  hdataMax : Nat
deriving DecidableEq, Repr

/-- The default variant of the map (R44). -/
def MemMap.default : MemMap :=
  { appStart := 0x8400, appEnd := 0xBFFF, crcStart := 0x83C0, crcEnd := 0x83FF, nvmStart := 0xBE00, nvmEnd := 0xBFFF }

/-- R9's defaults. `FLAG`, `ESC` and `XMASK` are the spec's defaults, which it marks as general knowledge (log 17). The
two OPEN ones: `RX_CAPACITY` is the source's "unbounded", `HDATA_MAX` is its lower bound 136 (DESIGN CHOICE, log 6). -/
def Config.default : Config :=
  { flag := 0x7E, esc := 0x7D, xmask := 0x20, escset := [0x7E, 0x7D], dropFirst := true, ragged := .zeroPad,
    padByte := 0x00, timeoutTicks := 1000, map := MemMap.default, rxCapacity := none, hdataMax := 136 }

end Sys2Proof
end

