-- ==== Sys2Proof/Syntax.lean ====
section
/-! DEFINITION. The instructions (00_scope.md R4): one constructor per row of spec/opcode_table.json. -/

namespace Sys2Proof

/-- An instruction: a wire command the block sends, or a host operation. A host operation's constructor carries the word's
ADDR field, also where the operation ignores it (R69), so that no bit of a word is lost. HDATA and IMG are latched
operands of the state, not of the word (R23). -/
inductive Instr where
  /-- READ `a` (R59, R106). -/
  | read (a : Addr)
  /-- CRC (R60, R109). -/
  | crc
  /-- WRITE `a, d` (R61, R108). -/
  | write (a : Addr) (d : List Byte)
  /-- ENCODE, OP 0x1 (R87); ADDR ignored. -/
  | encode (addr : Addr)
  /-- DECODE, OP 0x2 (R88); ADDR ignored. -/
  | decode (addr : Addr)
  /-- READ_BLOCK, OP 0x3 (R112). -/
  | readBlock (addr : Addr)
  /-- WRITE_BLOCK, OP 0x4 (R113). -/
  | writeBlock (addr : Addr)
  /-- CHECK_CRC, OP 0x5 (R114); ADDR ignored. -/
  | checkCrc (addr : Addr)
  /-- VERIFY, OP 0x6 (R131); ADDR ignored. -/
  | verify (addr : Addr)
  /-- FLASH, OP 0x7 (R133); ADDR ignored. -/
  | flash (addr : Addr)
deriving DecidableEq, Repr

/-- The wire commands alone: what SEQ can stand at the `Send` of (R72: the block sends only these three). -/
inductive Cmd where
  | read (a : Addr)
  | crc
  | write (a : Addr) (d : List Byte)
deriving DecidableEq, Repr

/-- A wire command as an instruction. -/
def Cmd.instr : Cmd → Instr
  | .read a => .read a
  | .crc => .crc
  | .write a d => .write a d

/-- An encoded instruction: a HOSTOP word (format HW, R69), or the bytes of a wire command before framing (formats WC4,
WC2 and WC68, R57). -/
inductive Code where
  | host (w : BitVec 32)
  | wire (p : List Byte)
deriving DecidableEq, Repr

end Sys2Proof
end

