-- ==== Sys2Proof/WellFormed.lean ====
section
/-! DEFINITION. What the spec requires of a configuration (00_scope.md R10, 20_memory.md R45) and of an instruction's
operands (30_encoding.md R61). -/

namespace Sys2Proof

/-- R45 (a): no region is reversed. -/
def MemMap.ordered (m : MemMap) : Bool :=
  decide (m.appStart ≤ m.appEnd) && decide (m.crcStart ≤ m.crcEnd) && decide (m.nvmStart ≤ m.nvmEnd)

/-- R45 (b): the settings region lies inside the application region. -/
def MemMap.nvmInside (m : MemMap) : Bool :=
  decide (m.appStart ≤ m.nvmStart) && decide (m.nvmEnd ≤ m.appEnd)

/-- R45 (c): the checksum table is disjoint from the application region. -/
def MemMap.crcApart (m : MemMap) : Bool :=
  decide (m.crcEnd < m.appStart) || decide (m.appEnd < m.crcStart)

/-- R45 (d): the checksum table is exactly one block. -/
def MemMap.crcOneBlock (m : MemMap) : Bool :=
  decide (m.crcEnd.toNat + 1 = m.crcStart.toNat + Config.block)

/-- R45: a well-formed memory map. -/
def MemMap.wf (m : MemMap) : Bool :=
  m.ordered && m.nvmInside && m.crcApart && m.crcOneBlock

/-- R10 (a) to (d): the conditions that make the frame decoder the inverse of the encoder. -/
def Config.codecWf (c : Config) : Bool :=
  decide (c.flag ≠ c.esc) && decide (c.flag ∈ c.escset) && decide (c.esc ∈ c.escset) && decide (c.xmask ≠ 0x00) &&
    c.escset.all fun b => decide (b ^^^ c.xmask ≠ c.flag) && decide (b ^^^ c.xmask ∉ c.escset)

/-- R10, with R9's lower bound of `HDATA_MAX` (log 20): a configuration the model gives a meaning. -/
def Config.wf (c : Config) : Bool :=
  c.codecWf && decide (1 ≤ c.timeoutTicks) && c.map.wf && decide (136 ≤ c.hdataMax)

/-- A well-formed instruction under a padding policy: a WRITE has 64 data bytes, or at most 64 under `AS_IS` (R61). Every
other operand is well-formed at every value. -/
def Instr.wf (pol : RaggedPolicy) : Instr → Bool
  | .write _ d =>
    match pol with
    | .zeroPad => decide (d.length = Config.block)
    | .asIs => decide (d.length ≤ Config.block)
  | .read _ => true
  | .crc => true
  | .encode _ => true
  | .decode _ => true
  | .readBlock _ => true
  | .writeBlock _ => true
  | .checkCrc _ => true
  | .verify _ => true
  | .flash _ => true

end Sys2Proof
end

