-- ==== Sys2Proof/Decode.lean ====
section
/-! DEFINITION. The decoders and the encoder of the two formats of instruction (30_encoding.md R57 to R72), and the host's
view of a table row's word. -/

namespace Sys2Proof

/-- Why a code is no instruction. -/
inductive Reject where
  /-- OP is 0x0 or 0x8 to 0xF (R71). -/
  | reservedOp
  /-- RSV is not 0 (R71). -/
  | reservedBits
  /-- No command byte, or one other than 0x01, 0x03 and 0x04 (R72). -/
  | unknownCommand
  /-- The length byte is not the command's (R59 to R62). -/
  | badLengthByte
  /-- The command does not have its format's size (R57, R61). -/
  | wrongSize
deriving DecidableEq, Repr

/-! ### HOSTOP fields (R69) -/

/-- OP, bits 3:0. -/
def hostOpField (w : BitVec 32) : BitVec 4 := w.extractLsb' 0 4

/-- RSV, bits 15:4. -/
def hostRsvField (w : BitVec 32) : BitVec 12 := w.extractLsb' 4 12

/-- ADDR, bits 31:16. -/
def hostAddrField (w : BitVec 32) : Addr := w.extractLsb' 16 16

/-- The word of an operation: ADDR in bits 31:16, RSV = 0, OP in bits 3:0 (R69). -/
def hostWord (addr : Addr) (op : BitVec 4) : BitVec 32 := addr ++ (0 : BitVec 12) ++ op

/-! ### Addresses on the wire (R38) -/

/-- `a[15:8]`. -/
def addrHi (a : Addr) : Byte := a.extractLsb' 8 8

/-- `a[7:0]`. -/
def addrLo (a : Addr) : Byte := a.extractLsb' 0 8

/-- The address whose bytes are `hi` and `lo`. -/
def addrOf (hi lo : Byte) : Addr := hi ++ lo

/-! ### Decoders -/

/-- Decode a HOSTOP word (R70, R71). RSV is tested first; both failures are the same IllegalOp. -/
def decodeHost (w : BitVec 32) : Except Reject Instr :=
  if hostRsvField w ≠ 0 then .error .reservedBits
  else
    let addr := hostAddrField w
    match (hostOpField w).toNat with
    | 1 => .ok (.encode addr)
    | 2 => .ok (.decode addr)
    | 3 => .ok (.readBlock addr)
    | 4 => .ok (.writeBlock addr)
    | 5 => .ok (.checkCrc addr)
    | 6 => .ok (.verify addr)
    | 7 => .ok (.flash addr)
    | _ => .error .reservedOp

/-- Decode the bytes of one whole wire command before framing (R59 to R61). The block itself never parses a command
(R72): this decoder is the model's reading of the three formats (log 16). -/
def decodeWire (pol : RaggedPolicy) : List Byte → Except Reject Instr
  | [] => .error .unknownCommand
  | c :: rest =>
    if c = Config.readCmd then
      match rest with
      | [l, hi, lo] => if l = Config.readLen then .ok (.read (addrOf hi lo)) else .error .badLengthByte
      | _ => .error .wrongSize
    else if c = Config.crcCmd then
      match rest with
      | [l] => if l = Config.crcLen then .ok .crc else .error .badLengthByte
      | _ => .error .wrongSize
    else if c = Config.writeCmd then
      match rest with
      | l :: hi :: lo :: d =>
        if l = Config.writeLen then
          if (Instr.write (addrOf hi lo) d).wf pol then .ok (.write (addrOf hi lo) d) else .error .wrongSize
        else .error .badLengthByte
      | _ => .error .wrongSize
    else .error .unknownCommand

/-- The decoder: total on every word and every byte sequence. -/
def decode (pol : RaggedPolicy) : Code → Except Reject Instr
  | .host w => decodeHost w
  | .wire p => decodeWire pol p

/-! ### Encoder -/

/-- The code of an instruction (R59 to R61, R69, R70). -/
def encode : Instr → Code
  | .read a => .wire [Config.readCmd, Config.readLen, addrHi a, addrLo a]
  | .crc => .wire [Config.crcCmd, Config.crcLen]
  | .write a d => .wire (Config.writeCmd :: Config.writeLen :: addrHi a :: addrLo a :: d)
  | .encode addr => .host (hostWord addr 0x1)
  | .decode addr => .host (hostWord addr 0x2)
  | .readBlock addr => .host (hostWord addr 0x3)
  | .writeBlock addr => .host (hostWord addr 0x4)
  | .checkCrc addr => .host (hostWord addr 0x5)
  | .verify addr => .host (hostWord addr 0x6)
  | .flash addr => .host (hostWord addr 0x7)

/-! ### The table's numbering -/

/-- The `n` bytes of `w` with byte 0 most significant (R58). -/
def bytesOfNat (n w : Nat) : List Byte :=
  (List.range n).map fun i => BitVec.ofNat 8 (w >>> (8 * (n - 1 - i)))

/-- The command that starts with `p`, its missing operand bytes zero: byte 1 is the command's whole length (R62). -/
def zeroFill (p : List Byte) : List Byte :=
  p ++ List.replicate ((p.getD 1 0).toNat - p.length) 0

/-- The instruction of a table row's word. A 32-bit word is read as a HOSTOP word first and as the first four bytes of a
wire command otherwise; any other width is a wire command (log 11, log 15). -/
def decodeTableWord (nbits w : Nat) : Option Instr :=
  let asWire : Option Instr := (decodeWire Config.default.ragged (zeroFill (bytesOfNat (nbits / 8) w))).toOption
  if nbits = 32 then
    match decodeHost (BitVec.ofNat 32 w) with
    | .ok i => some i
    | .error _ => asWire
  else asWire

end Sys2Proof
end

