-- ==== Sys2Proof/Machine/Memory.lean ====
section
/-! DEFINITION. The image address space IMG (20_memory.md R36): a partial map from 16-bit address to byte, held as a list of
cells in one canonical form. -/

namespace Sys2Proof.Machine

/-- A partial map from address to byte: cells with strictly rising addresses. An unlisted address reads as `none` ("`none`
where the image supplies no byte", R36), so no cell ever equals what an unlisted address reads as. -/
abbrev Memory := List Host.Cell

/-- Addresses strictly rise from `lo` on, and stay below 2^16. -/
def Memory.wfFrom : Nat → Memory → Bool
  | _, [] => true
  | lo, (a, _) :: m => decide (lo ≤ a) && decide (a < 65536) && Memory.wfFrom (a + 1) m

/-- The canonical form. -/
def Memory.wf (m : Memory) : Bool := Memory.wfFrom 0 m

/-- `MemRead(a, 1)` (43_image_model.md R115). -/
def Memory.read : Memory → Nat → Option Byte
  | [], _ => none
  | (b, v) :: m, a => if a = b then some v else Memory.read m a

/-- The map with `v` at `a`, in canonical form. No instruction writes IMG (R13 (e)): this only assembles the map a host
presents. -/
def Memory.write : Memory → Nat → Byte → Memory
  | [], a, v => [(a, v)]
  | (b, w) :: m, a, v =>
    if a < b then (a, v) :: (b, w) :: m
    else if a = b then (a, v) :: m
    else (b, w) :: Memory.write m a v

/-- The map of a host's pairs of address and byte (log 10): the first pair of an address counts. -/
def Memory.ofPairs (ps : List (Addr × Byte)) : Memory :=
  ps.foldr (fun p m => Memory.write m p.1.toNat p.2) []

end Sys2Proof.Machine
end

