-- ==== Sys2Proof/Machine/Outcome.lean ====
section
/-! DEFINITION. The outcome taxonomy of a host operation (60_exceptions.md R138), the decode reasons (40_frame_codec.md R83), the
progress events (44_orchestrator.md R124) and the result of a take (41_response_buffer.md R92). -/

namespace Sys2Proof.Machine

/-- Why DECODE fails (R83). -/
inductive DecodeReason where
  | noOpenFlag
  | unterminated
  | escapeFlag
  | badEscape
  | trailingBytes
  | rawSpecial
deriving DecidableEq, Repr

/-- The two failures of an exchange (42_block_primitives.md R105): a take that timed out, or a device status other than 0x00. -/
inductive Cause where
  | timedOut
  | status (st : Byte)
deriving DecidableEq, Repr

/-- An error with its recorded fields (R138). -/
inductive Err where
  | invalidBlockSize
  | invalidCrcSize
  | blockReadFailed (a : Addr) (why : Cause)
  | blockWriteFailed (a : Addr) (why : Cause)
  | crcCheckFailed (why : Cause)
  | verificationMismatch (a : Addr)
  | malformedImage
  | illegalOp
  | decodeError (x : DecodeReason)
deriving DecidableEq, Repr

/-- The outcome of a host operation. -/
inductive OpOutcome where
  | ok
  | err (e : Err)
deriving DecidableEq, Repr

/-- A progress event (R124). -/
inductive Progress where
  | byteCount (n : Nat)
  | dot
  | writeDone
  | verifyStart
  | done
  | error (e : Err)
  | verifyFailed
  | flashFailed
deriving DecidableEq, Repr

/-- What a take returns (R92). -/
inductive TakeResult where
  | ok (r : List Byte)
  | timedOut
deriving DecidableEq, Repr

end Sys2Proof.Machine

namespace Sys2Proof

/-- `RENDER` (00_scope.md R9): the texts the source does not give. FREE VALUE (no body): "a claim may not depend on it"
(R124, D18; log 7). -/
opaque Config.render : Machine.Progress → String

/-- The text of a progress event (R124): the source quotes three of them. -/
def Machine.Progress.text : Machine.Progress → String
  | .dot => "."
  | .verifyFailed => "Verify failed"
  | .flashFailed => "Flash failed"
  | .byteCount n => Config.render (.byteCount n)
  | .writeDone => Config.render .writeDone
  | .verifyStart => Config.render .verifyStart
  | .done => Config.render .done
  | .error e => Config.render (.error e)

end Sys2Proof
end

