-- ==== Sys2Proof/Machine/State.lean ====
section
/-! DEFINITION. The machine's state as plain data (10_state.md), the state after reset (70_reset_and_hazards.md R156), and why a step
can stop. -/

namespace Sys2Proof.Machine

/-- Why the machine stops with a fault. -/
inductive Fault where
  /-- A wire command was executed where SEQ does not stand at a `Send`: raised by execRead, execCrc and execWrite. SAFE: the
  spec has a SEQ step only at `RUN(c)` (10_state.md R29), and `step` never runs a wire command elsewhere (log 12). -/
  | notAtCommand
deriving DecidableEq, Repr

/-- Why a step is refused. -/
inductive Refusal where
  /-- An instruction without a meaning: raised by no arm of `exec` at present. SAFE. -/
  | notModelled (mnemonic : String)
  /-- The configuration breaks R10 or R45: raised by `step`. SAFE: "a model must refuse a configuration that breaks any of
  them" (60_exceptions.md R147 (b)). -/
  | illFormedConfig
  /-- The agenda asks for a host issue while BUSY = 1: raised by the host's turn. SAFE: "the host has no issue step"
  (10_state.md R25; log 3). -/
  | issueWhileBusy
  /-- The agenda asks for an issue with HDATA longer than HDATA_MAX: raised by the host's turn. SAFE: "no issue step exists
  for it" (93_implementation_defined.md U15; log 3). -/
  | hdataTooLong
  /-- The agenda asks for a SEQ step while `phase` is not `RUN(c)`: raised by SEQ's turn. SAFE: the step is not enabled
  (10_state.md R29; log 3). -/
  | seqNotEnabled
deriving DecidableEq, Repr

/-- The region snapshots `APP`, `CRCT` and `NVM` of `Load` (43_image_model.md R117). -/
structure Image where
  app  : List Byte
  crct : List Byte
  nvm  : List Byte
deriving DecidableEq, Repr

/-- The two callers of `VerifyRange`: VERIFY over the application region (R131), FLASH over the settings region (R133). -/
inductive Pass where
  | application
  | settings
deriving DecidableEq, Repr

/-- The two callers of `CheckCrc`: CHECK_CRC (R114), and FLASH with its regions (R133). -/
inductive CrcUser where
  | checkCrc
  | flash (img : Image)
deriving DecidableEq, Repr

/-- Where SEQ resumes after the take of an exchange, with the working registers that are live there (10_state.md R28, R30;
log 21). -/
inductive Resume where
  /-- READ_BLOCK, in `ReadBlock(a)`. -/
  | readBlock (a : Addr)
  /-- WRITE_BLOCK, in `WriteBlock(a, HDATA)`. -/
  | writeBlock (a : Addr)
  /-- `CheckCrc`, in the table WRITE. -/
  | crcTable (u : CrcUser)
  /-- `CheckCrc`, in the CRC exchange. -/
  | crcStatus (u : CrcUser)
  /-- `VerifyRange`, in the read of the block at `A` (before the block is appended to `VBUF`). -/
  | rangeRead (p : Pass) (A : BitVec 17) (VBUF : List Byte) (img : Image)
  /-- FLASH, in the WRITE of the chunk at `A`, byte `K` of `APP`. -/
  | flashWrite (A : BitVec 17) (K : Nat) (img : Image)
deriving DecidableEq, Repr

/-- Whose failure path an abort takes (44_orchestrator.md R126, 60_exceptions.md R141). -/
inductive Owner where
  | primitive
  | verify
  | flash
deriving DecidableEq, Repr

/-- A pseudocode position `c` of `RUN(c)` (10_state.md R28). -/
inductive Pos where
  /-- The start of the latched operation. -/
  | start
  /-- At the `Send` of wire command `c`, whose take resumes at `k`. -/
  | call (c : Cmd) (k : Resume)
  /-- A take returned `r` to `k`. -/
  | ret (r : TakeResult) (k : Resume)
  /-- An error was raised: `ERR`, and whose failure path runs. -/
  | raise (ERR : Err) (o : Owner)
deriving DecidableEq, Repr

/-- SEQ's control point (10_state.md R28). -/
inductive Phase where
  | idle
  | run (c : Pos)
  /-- `WAIT(n, t, c)`: inside `Take(n)`, `t` ticks after the take began. -/
  | wait (n t : Nat) (k : Resume)
deriving DecidableEq, Repr

/-- What exists only while SESS = 1: the transport handle, open at `baud`, and the response buffer (10_state.md R27,
44_orchestrator.md R125). -/
structure Session where
  baud : Nat
  rxq  : List Byte
deriving DecidableEq, Repr

/-- One agent step of the agenda (10_state.md R18; log 2). -/
inductive Turn where
  /-- HOST issues (HOSTOP, HDATA, IMG) (R25). -/
  | issue (hostop : BitVec 32) (hdata : List Byte) (img : List (Addr × Byte))
  /-- SEQ steps (R29). -/
  | seq
  /-- RXA delivers a byte (41_response_buffer.md R90). -/
  | rx (b : Byte)
  /-- TIME ticks (41_response_buffer.md R102). -/
  | tick
  /-- External reset (70_reset_and_hazards.md R158). -/
  | reset
deriving DecidableEq, Repr

/-- The machine. -/
structure State where
  /-- The configuration (00_scope.md R9, R20): no step writes it (log 1). -/
  cfg     : Config
  /-- The HOSTOP latch (R23). -/
  hostop  : BitVec 32
  /-- The HDATA latch (R23). -/
  hdata   : List Byte
  /-- The IMG latch (R23). -/
  img     : Memory
  /-- STATUS.BUSY (R21). -/
  busy    : Bool
  /-- STATUS.DONE (R21). -/
  done    : Bool
  /-- RESULT (R22). -/
  result  : BitVec 32
  /-- RDATA (R24). -/
  rdata   : List Byte
  /-- The session: STATUS.SESS is its presence (R21, R27). -/
  session : Option Session
  /-- SEQ's control point, with the take timer and the working registers (R28, R30). -/
  phase   : Phase
  /-- TXLOG, oldest send first (R31). -/
  txlog   : List (List Byte)
  /-- PLOG, oldest event first (R32). -/
  plog    : List Progress
  /-- FAULT (R33): no step but a reset clears it (R156; log 5). -/
  fault   : Bool
  /-- The agent steps to come, the next one first: the model's own field (log 2). -/
  turns   : List Turn
deriving DecidableEq, Repr

/-- The state after reset (R156). The operand latches, which R156 leaves unspecified, hold 0, [] and the empty map (DESIGN
CHOICE, log 4). -/
def State.reset : State :=
  { cfg := Config.default, hostop := 0, hdata := [], img := [], busy := false, done := false, result := 0, rdata := [],
    session := none, phase := .idle, txlog := [], plog := [], fault := false, turns := [] }

end Sys2Proof.Machine
end

