-- ==== Sys2Proof/Machine/Flags.lean ====
section
/-! DEFINITION. The host-facing words: STATUS (10_state.md R21), RESULT (R22) and the encoding of an outcome (60_exceptions.md R138). -/

namespace Sys2Proof.Machine

/-- STATUS.SESS: a session holds the transport. -/
def State.sess (s : State) : Bool := s.session.isSome

/-- The STATUS register (R21): BUSY bit 0, DONE bit 1, SESS bit 2, reserved bits 0. -/
def State.status (s : State) : BitVec 8 :=
  (0 : BitVec 5) ++ BitVec.ofBool s.sess ++ BitVec.ofBool s.done ++ BitVec.ofBool s.busy

/-- The RESULT register's layout (R22). -/
def packResult (code : BitVec 4) (tmo sv : Bool) (info : Byte) (addr : Addr) : BitVec 32 :=
  addr ++ info ++ (0 : BitVec 2) ++ BitVec.ofBool sv ++ BitVec.ofBool tmo ++ code

/-- RESULT.CODE. -/
def resultCode (w : BitVec 32) : BitVec 4 := w.extractLsb' 0 4
/-- RESULT.TO. -/
def resultTO (w : BitVec 32) : Bool := w.getLsbD 4
/-- RESULT.SV. -/
def resultSV (w : BitVec 32) : Bool := w.getLsbD 5
/-- RESULT.INFO. -/
def resultInfo (w : BitVec 32) : Byte := w.extractLsb' 8 8
/-- RESULT.ADDR. -/
def resultAddr (w : BitVec 32) : Addr := w.extractLsb' 16 16

/-- The reason codes (40_frame_codec.md R83). -/
def DecodeReason.code : DecodeReason → Byte
  | .noOpenFlag => 0x01
  | .unterminated => 0x02
  | .escapeFlag => 0x03
  | .badEscape => 0x04
  | .trailingBytes => 0x05
  | .rawSpecial => 0x06

/-- A failed exchange's word: TO = 1 and no status, or SV = 1 with INFO = status (R139, R140). -/
def packCause (code : BitVec 4) (why : Cause) (addr : Addr) : BitVec 32 :=
  match why with
  | .timedOut => packResult code true false 0 addr
  | .status st => packResult code false true st addr

/-- The word of an error (R138). -/
def Err.word : Err → BitVec 32
  | .invalidBlockSize => packResult 0x1 false false 0 0
  | .invalidCrcSize => packResult 0x2 false false 0 0
  | .blockReadFailed a why => packCause 0x3 why a
  | .blockWriteFailed a why => packCause 0x4 why a
  | .crcCheckFailed why => packCause 0x5 why 0
  | .verificationMismatch a => packResult 0x6 false false 0 a
  | .malformedImage => packResult 0x7 false false 0 0
  | .illegalOp => packResult 0x8 false false 0 0
  | .decodeError x => packResult 0x9 false false x.code 0

/-- `encode(o)` of completion (10_state.md R26): the word of an outcome, all fields 0 for OK. -/
def OpOutcome.word : OpOutcome → BitVec 32
  | .ok => packResult 0x0 false false 0 0
  | .err e => e.word

end Sys2Proof.Machine
end

