-- ==== Sys2Proof/Machine/FrameCodec.lean ====
section
/-! DEFINITION. The frame codec FC (40_frame_codec.md): pure functions of the bytes and the configuration (R75). -/

namespace Sys2Proof.Machine

/-- `esc(b)` (R76). -/
def escByte (cfg : Config) (b : Byte) : List Byte :=
  if b ∈ cfg.escset then [cfg.esc, b ^^^ cfg.xmask] else [b]

/-- `Encode(p)`, the frame (R77). -/
def encodeFrame (cfg : Config) (p : List Byte) : List Byte :=
  [cfg.flag] ++ p.flatMap (escByte cfg) ++ [cfg.flag]

/-- `Wire(p)`, the bytes handed to the transport (R78). -/
def wireForm (cfg : Config) (p : List Byte) : List Byte :=
  if cfg.dropFirst then (encodeFrame cfg p).tail else encodeFrame cfg p

/-- The scan of `Decode` after the opening delimiter (R82). -/
def decodeBody (cfg : Config) : List Byte → Except DecodeReason (List Byte)
  | [] => .error .unterminated
  | b :: rest =>
    if b = cfg.flag then
      if rest = [] then .ok [] else .error .trailingBytes
    else if b = cfg.esc then
      match rest with
      | [] => .error .unterminated
      | c :: rest' =>
        if c = cfg.flag then .error .escapeFlag
        else if c ^^^ cfg.xmask ∉ cfg.escset then .error .badEscape
        else (decodeBody cfg rest').map ((c ^^^ cfg.xmask) :: ·)
    else if b ∈ cfg.escset then .error .rawSpecial
    else (decodeBody cfg rest).map (b :: ·)

/-- `Decode(f)` (R82). -/
def decodeFrame (cfg : Config) : List Byte → Except DecodeReason (List Byte)
  | [] => .error .noOpenFlag
  | b :: rest => if b = cfg.flag then decodeBody cfg rest else .error .noOpenFlag

end Sys2Proof.Machine
end

