-- ==== Sys2Proof/Machine/Operands.lean ====
section
/-! DEFINITION. Operand assembly (30_encoding.md R63): the bytes of a wire command, padding (42_block_primitives.md R107), chunks
(44_orchestrator.md R132) and counter addresses (20_memory.md R47). -/

namespace Sys2Proof.Machine

/-- `Pad(d)` (R107). -/
def pad (cfg : Config) (d : List Byte) : List Byte :=
  match cfg.ragged with
  | .zeroPad => d ++ List.replicate (Config.block - d.length) cfg.padByte
  | .asIs => d

/-- The bytes `p` of `Send(p)` (R59 to R61, R106, R108, R109). -/
def cmdBytes (cfg : Config) : Cmd → List Byte
  | .read a => [Config.readCmd, Config.readLen, addrHi a, addrLo a]
  | .crc => [Config.crcCmd, Config.crcLen]
  | .write a d => [Config.writeCmd, Config.writeLen, addrHi a, addrLo a] ++ pad cfg d

/-- The length of a command's response (R64, R65). -/
def respLen : Cmd → Nat
  | .read _ => Config.readResp
  | .crc => Config.crcResp
  | .write _ _ => Config.writeResp

/-- The counter `A` at a region start: the address in 17 bits (R47). -/
def counterAt (a : Addr) : BitVec 17 := a.zeroExtend 17

/-- `A[15:0]`, the address that is sent (R47, R63). -/
def counterAddr (A : BitVec 17) : Addr := A.extractLsb' 0 16

/-- `A + 64` (R127, R133). -/
def counterNext (A : BitVec 17) : BitVec 17 := A + 64

/-- `A <= e`, compared on the full counter value (R47). -/
def counterWithin (A : BitVec 17) (e : Addr) : Bool := decide (A.toNat ≤ e.toNat)

/-- `APP[K .. min(K + 64, len(APP)) - 1]` (R132, R133). -/
def chunkAt (app : List Byte) (K : Nat) : List Byte := (app.drop K).take Config.block

/-- The 64 data bytes `r[1..64]` of a READ response (R64, R106). -/
def blockOf (r : List Byte) : List Byte := (r.drop 1).take Config.block

/-- `s + i` as an address (R130). -/
def addrAt (s : Addr) (i : Nat) : Addr := s + BitVec.ofNat 16 i

end Sys2Proof.Machine
end

