-- ==== Sys2Proof/Machine/Ops.lean ====
section
/-! DEFINITION. The shared operations: session, response buffer and take (41_response_buffer.md), `Send`, `Report`, completion and the
one abort path (60_exceptions.md R141). -/

namespace Sys2Proof.Machine

/-! ### Session (44_orchestrator.md R125) -/

/-- `Open()`: the transport opens at BAUD with an empty buffer, and SESS <- 1. It never fails (D12; log 13). -/
def openSession (s : State) : State :=
  { s with session := some { baud := Config.baud, rxq := [] } }

/-- `Close()`: the buffer is discarded, and SESS <- 0. -/
def closeSession (s : State) : State :=
  { s with session := none }

/-- The bytes of `rxq`; none outside a session. -/
def State.rxq (s : State) : List Byte :=
  match s.session with
  | some q => q.rxq
  | none => []

/-- `rxq <- q`; without a session there is no buffer to write. -/
def State.setRxq (s : State) (q : List Byte) : State :=
  match s.session with
  | some x => { s with session := some { x with rxq := q } }
  | none => s

/-! ### Send and Report -/

/-- `Send(p)` for a wire command (42_block_primitives.md R103). -/
def send (c : Cmd) (s : State) : State :=
  { s with txlog := s.txlog ++ [wireForm s.cfg (cmdBytes s.cfg c)] }

/-- `Report(ev)` (44_orchestrator.md R123). -/
def report (ev : Progress) (s : State) : State :=
  { s with plog := s.plog ++ [ev] }

/-! ### Take (R92, R93) -/

/-- The data test of a poll: the `n` oldest bytes and the remainder, if there are `n`. -/
def takeBytes (n : Nat) (q : List Byte) : Option (List Byte × List Byte) :=
  if n ≤ q.length then some (q.take n, q.drop n) else none

/-- One poll of `Take(n)` with `t` ticks elapsed: the data test, then the timeout test, else SEQ waits. -/
def poll (n t : Nat) (k : Resume) (s : State) : State :=
  match takeBytes n s.rxq with
  | some (r, q) => { s.setRxq q with phase := .run (.ret (.ok r) k) }
  | none =>
    if s.cfg.timeoutTicks ≤ t then { s with phase := .run (.ret .timedOut k) }
    else { s with phase := .wait n t k }

/-- The exchange of a wire command (R104): `Send` and at once the entry poll of its take. -/
def exchange (c : Cmd) (k : Resume) (s : State) : State :=
  poll (respLen c) 0 k (send c s)

/-! ### Completion and abort -/

/-- Completion (10_state.md R26). -/
def complete (o : OpOutcome) (out : List Byte) (s : State) : State :=
  { s with result := o.word, rdata := out, busy := false, done := true, phase := .idle }

/-- Success of an operation that holds a session: `Close()`, then completion. -/
def finish (out : List Byte) (s : State) : State :=
  complete .ok out (closeSession s)

/-- `raise E`: SEQ goes to the failure path with `ERR` pending. -/
def raise (e : Err) (o : Owner) (s : State) : State :=
  { s with phase := .run (.raise e o) }

/-- The progress events of a failure (R126): the error and the terminal line, for VERIFY and FLASH only (R123). -/
def reportFailure (e : Err) (o : Owner) (s : State) : State :=
  match o with
  | .primitive => s
  | .verify => report .verifyFailed (report (.error e) s)
  | .flash => report .flashFailed (report (.error e) s)

/-- TAKING AN EXCEPTION: the abort path (R126, R141). The events, `Close()` if a session is open, completion with the
error. There is no return from it (R144). -/
def abort (e : Err) (o : Owner) (s : State) : State :=
  complete (.err e) [] (closeSession (reportFailure e o s))

/-- A fresh operation's host-facing registers (10_state.md R25). -/
def accept (s : State) : State :=
  { s with busy := true, done := false, result := 0, rdata := [], phase := .run .start }

end Sys2Proof.Machine
end

