-- ==== Sys2Proof/Machine/ImageModel.lean ====
section
/-! DEFINITION. The image model IM (43_image_model.md): region extraction and `Load`. -/

namespace Sys2Proof.Machine

/-- `n` image bytes from address `a` on, or `none` if one is missing. -/
def readRun (m : Memory) : Nat → Nat → Option (List Byte)
  | _, 0 => some []
  | a, n + 1 =>
    match Memory.read m a with
    | none => none
    | some b =>
      match readRun m (a + 1) n with
      | none => none
      | some bs => some (b :: bs)

/-- `Region(s, e)`, inclusive at both ends (R116). -/
def region (m : Memory) (s e : Addr) : Option (List Byte) :=
  readRun m s.toNat (e.toNat + 1 - s.toNat)

/-- `Load()` (R117): all three regions, or `none` for MalformedImage. -/
def load (map : MemMap) (m : Memory) : Option Image :=
  match region m map.appStart map.appEnd with
  | none => none
  | some app =>
    match region m map.crcStart map.crcEnd with
    | none => none
    | some crct =>
      match region m map.nvmStart map.nvmEnd with
      | none => none
      | some nvm => some { app := app, crct := crct, nvm := nvm }

end Sys2Proof.Machine
end

