-- ==== Sys2Proof/Machine/Procedures.lean ====
section
/-! DEFINITION. SEQ's procedures (42_block_primitives.md, 44_orchestrator.md): the response check, the calls of the wire commands,
`CheckCrc`, `VerifyRange`, the write pass, and what SEQ does at each point where a take returns. -/

namespace Sys2Proof.Machine

/-! ### Response check (42_block_primitives.md R105) -/

/-- `r[0]`; the free value where the response is empty, which no command's response is (log 8). -/
def statusByte : List Byte → Byte
  | [] => Config.absentStatus
  | st :: _ => st

/-- `Check(r, E, info)`: the timeout first, then the status. `mk` is the primitive's error kind with its address. -/
def check (mk : Cause → Err) : TakeResult → Except Err (List Byte)
  | .timedOut => .error (mk .timedOut)
  | .ok r => if statusByte r = Config.statusOk then .ok r else .error (mk (.status (statusByte r)))

/-! ### Calling a wire command -/

/-- Whose failure path an error at this point takes. -/
def Resume.owner : Resume → Owner
  | .readBlock _ => .primitive
  | .writeBlock _ => .primitive
  | .crcTable .checkCrc => .primitive
  | .crcTable (.flash _) => .flash
  | .crcStatus .checkCrc => .primitive
  | .crcStatus (.flash _) => .flash
  | .rangeRead .application _ _ _ => .verify
  | .rangeRead .settings _ _ _ => .flash
  | .flashWrite _ _ _ => .flash

/-- SEQ stands at the `Send` of `c`. -/
def goTo (c : Cmd) (k : Resume) (s : State) : State :=
  { s with phase := .run (.call c k) }

/-- The wire command at SEQ's position: for a WRITE the size test, before any `Send` (R108, R111); then the exchange. -/
def callCmd (c : Cmd) (k : Resume) (s : State) : State :=
  match c with
  | .read a => exchange (.read a) k s
  | .crc => exchange .crc k s
  | .write a d => if Config.block < d.length then raise .invalidBlockSize k.owner s else exchange (.write a d) k s

/-! ### `CheckCrc` (R109) -/

/-- The first statements of `CheckCrc(t)`: the size test, then the table WRITE at `crc_start`. -/
def startCheckCrc (t : List Byte) (u : CrcUser) (s : State) : State :=
  if t.length = Config.block then goTo (.write s.cfg.map.crcStart t) (.crcTable u) s
  else raise .invalidCrcSize (Resume.crcTable u).owner s

/-! ### `VerifyRange` (44_orchestrator.md R127) -/

/-- The range's start. -/
def Pass.first (map : MemMap) : Pass → Addr
  | .application => map.appStart
  | .settings => map.nvmStart

/-- The range's end, inclusive. -/
def Pass.last (map : MemMap) : Pass → Addr
  | .application => map.appEnd
  | .settings => map.nvmEnd

/-- The expected bytes `X`. -/
def Pass.expected (img : Image) : Pass → List Byte
  | .application => img.app
  | .settings => img.nvm

/-- The pass's owner. -/
def Pass.owner : Pass → Owner
  | .application => .verify
  | .settings => .flash

/-- The first index `i`, counted from `i₀`, at which the byte read differs from the expected one (R129, R130). A byte that
was not read counts as different (log 19). -/
def firstMismatch : Nat → List Byte → List Byte → Option Nat
  | _, [], _ => none
  | i, _ :: _, [] => some i
  | i, x :: xs, v :: vs => if v = x then firstMismatch (i + 1) xs vs else some i

/-- The end of VERIFY and of FLASH: `Report(Done); Close(); complete(OK)` (R131, R133). -/
def finishPass (s : State) : State :=
  finish [] (report .done s)

/-- The compare pass, after every block was read (R129). -/
def comparePass (p : Pass) (VBUF : List Byte) (img : Image) (s : State) : State :=
  match firstMismatch 0 (p.expected img) VBUF with
  | some i => raise (.verificationMismatch (addrAt (p.first s.cfg.map) i)) p.owner s
  | none => finishPass s

/-- The head of the read loop: `while A <= e`. -/
def readLoop (p : Pass) (A : BitVec 17) (VBUF : List Byte) (img : Image) (s : State) : State :=
  if counterWithin A (p.last s.cfg.map) then goTo (.read (counterAddr A)) (.rangeRead p A VBUF img) s
  else comparePass p VBUF img s

/-- `VerifyRange(s, e, X)` up to its first READ. -/
def startVerifyRange (p : Pass) (img : Image) (s : State) : State :=
  readLoop p (counterAt (p.first s.cfg.map)) [] img (report .verifyStart s)

/-! ### The write pass of FLASH (44_orchestrator.md R133) -/

/-- The head of the write loop: `while K < len(APP)`; after it `WriteDone` and `CheckCrc(CRCT)`. -/
def writeLoop (A : BitVec 17) (K : Nat) (img : Image) (s : State) : State :=
  if K < img.app.length then goTo (.write (counterAddr A) (chunkAt img.app K)) (.flashWrite A K img) s
  else startCheckCrc img.crct (.flash img) (report .writeDone s)

/-! ### After a take -/

/-- After a successful table WRITE: the CRC command (R109). -/
def afterTable (u : CrcUser) (s : State) : State :=
  goTo .crc (.crcStatus u) s

/-- After a successful CRC exchange: CHECK_CRC is done (R114), FLASH reads the settings back (R133). -/
def afterCrc (u : CrcUser) (s : State) : State :=
  match u with
  | .checkCrc => finish [] s
  | .flash img => startVerifyRange .settings img s

/-- The error kind of the exchange that resumes at `k`, with the address it records (R106, R108, R109). -/
def Resume.error (cfg : Config) : Resume → Cause → Err
  | .readBlock a => .blockReadFailed a
  | .writeBlock a => .blockWriteFailed a
  | .crcTable _ => .blockWriteFailed cfg.map.crcStart
  | .crcStatus _ => .crcCheckFailed
  | .rangeRead _ A _ _ => .blockReadFailed (counterAddr A)
  | .flashWrite A _ _ => .blockWriteFailed (counterAddr A)

/-- What SEQ does at `k` once the response `r` passed its check, up to the next command, error or completion. -/
def proceed (k : Resume) (r : List Byte) (s : State) : State :=
  match k with
  | .readBlock _ => finish (blockOf r) s
  | .writeBlock _ => finish [] s
  | .crcTable u => afterTable u s
  | .crcStatus u => afterCrc u s
  | .rangeRead p A VBUF img => readLoop p (counterNext A) (VBUF ++ blockOf r) img (report .dot s)
  | .flashWrite A K img => writeLoop (counterNext A) (K + Config.block) img (report .dot s)

/-- A take returned `r` to `k`: the check, then the rest. -/
def resume (r : TakeResult) (k : Resume) (s : State) : State :=
  match check (k.error s.cfg) r with
  | .error e => raise e k.owner s
  | .ok bytes => proceed k bytes s

end Sys2Proof.Machine
end

