-- ==== Sys2Proof/Machine/Sequencer.lean ====
section
/-! DEFINITION. The parts of one SEQ step (10_state.md R29, 41_response_buffer.md R92), in their order: the statements after the
take that returned, the wire command they reach with the entry poll of its take, and the abort path of an error raised. The
step ends where the take waits or has returned, or at completion (log 9). -/

namespace Sys2Proof.Machine

/-- Where a take has returned, SEQ goes on from there (R92). -/
def seqResume (s : State) : State :=
  match s.phase with
  | .run (.ret r k) => resume r k s
  | .run (.call _ _) => s
  | .run (.raise _ _) => s
  | .run .start => s
  | .idle => s
  | .wait _ _ _ => s

/-- Where SEQ stands at a `Send`, it runs the wire command, up to the end of its take's entry poll. -/
def seqSend (s : State) : State :=
  match s.phase with
  | .run (.call c k) => callCmd c k s
  | .run (.ret _ _) => s
  | .run (.raise _ _) => s
  | .run .start => s
  | .idle => s
  | .wait _ _ _ => s

/-- Where an error was raised, SEQ takes the abort path. -/
def seqAbort (s : State) : State :=
  match s.phase with
  | .run (.raise e o) => abort e o s
  | .run (.call _ _) => s
  | .run (.ret _ _) => s
  | .run .start => s
  | .idle => s
  | .wait _ _ _ => s

/-- The rest of a SEQ step, after an operation's own statements. -/
def seqFinish (s : State) : State := seqAbort (seqSend s)

end Sys2Proof.Machine
end

