-- ==== Sys2Proof/Machine/BlockOps.lean ====
section
/-! DEFINITION. The meanings of READ_BLOCK, WRITE_BLOCK and CHECK_CRC (42_block_primitives.md R112 to R114): the SEQ step at the start of
each operation. What follows each take is in Procedures.lean. -/

namespace Sys2Proof.Machine

/-- READ_BLOCK (R112): `Open()`, then `ReadBlock(ADDR)`. -/
def execReadBlock (addr : Addr) (s : State) : Host.Outcome State Fault Refusal :=
  .next (seqFinish (goTo (.read addr) (.readBlock addr) (openSession s)))

/-- WRITE_BLOCK (R113): the size test before `Open()`, then `WriteBlock(ADDR, HDATA)`. -/
def execWriteBlock (addr : Addr) (s : State) : Host.Outcome State Fault Refusal :=
  if Config.block < s.hdata.length then .next (abort .invalidBlockSize .primitive s)
  else .next (seqFinish (goTo (.write addr s.hdata) (.writeBlock addr) (openSession s)))

/-- CHECK_CRC (R114): the size test before `Open()`, then `CheckCrc(HDATA)`. ADDR is ignored. -/
def execCheckCrc (_addr : Addr) (s : State) : Host.Outcome State Fault Refusal :=
  if s.hdata.length ≠ Config.block then .next (abort .invalidCrcSize .primitive s)
  else .next (seqFinish (startCheckCrc s.hdata .checkCrc (openSession s)))

end Sys2Proof.Machine
end

