-- ==== Sys2Proof/Machine/CodecOps.lean ====
section
/-! DEFINITION. The meanings of ENCODE and DECODE (40_frame_codec.md R87, R88): one SEQ step, no session. -/

namespace Sys2Proof.Machine

/-- ENCODE (R87): RDATA <- the frame of HDATA. ADDR is ignored. -/
def execEncode (_addr : Addr) (s : State) : Host.Outcome State Fault Refusal :=
  .next (complete .ok (encodeFrame s.cfg s.hdata) s)

/-- DECODE (R88): RDATA <- the payload of HDATA, or DecodeError with the first reason. ADDR is ignored. -/
def execDecode (_addr : Addr) (s : State) : Host.Outcome State Fault Refusal :=
  match decodeFrame s.cfg s.hdata with
  | .ok p => .next (complete .ok p s)
  | .error x => .next (abort (.decodeError x) .primitive s)

end Sys2Proof.Machine
end

