-- ==== Sys2Proof/Machine/FlashOps.lean ====
section
/-! DEFINITION. The meanings of VERIFY and FLASH (44_orchestrator.md R131, R133): the SEQ step at the start of each operation. What follows
each take is in Procedures.lean. -/

namespace Sys2Proof.Machine

/-- VERIFY (R131): `Load()` before any session; then `Open()` and the verify pass over the application region. -/
def execVerify (_addr : Addr) (s : State) : Host.Outcome State Fault Refusal :=
  match load s.cfg.map s.img with
  | none => .next (abort .malformedImage .verify s)
  | some img => .next (seqFinish (startVerifyRange .application img (openSession s)))

/-- FLASH (R133): `Load()` before any session; then `Open()`, the byte count and the write pass. -/
def execFlash (_addr : Addr) (s : State) : Host.Outcome State Fault Refusal :=
  match load s.cfg.map s.img with
  | none => .next (abort .malformedImage .flash s)
  | some img =>
    .next (seqFinish (writeLoop (counterAt s.cfg.map.appStart) 0 img (report (.byteCount img.app.length) (openSession s))))

end Sys2Proof.Machine
end

