-- ==== Sys2Proof/Machine/WireCommands.lean ====
section
/-! DEFINITION. The meanings of the three wire commands (42_block_primitives.md R106, R108, R109): SEQ stands at the command's `Send`; the
exchange runs, up to the end of its entry poll (10_state.md R29, 41_response_buffer.md R92). Elsewhere the spec has no such step (log 12). -/

namespace Sys2Proof.Machine

/-- READ `a` (R59, R106). -/
def execRead (a : Addr) (s : State) : Host.Outcome State Fault Refusal :=
  match s.phase with
  | .run (.call _ k) => .next (seqFinish (callCmd (.read a) k s))
  | _ => .fault .notAtCommand

/-- CRC (R60, R109). -/
def execCrc (s : State) : Host.Outcome State Fault Refusal :=
  match s.phase with
  | .run (.call _ k) => .next (seqFinish (callCmd .crc k s))
  | _ => .fault .notAtCommand

/-- WRITE `a, d` (R61, R107, R108). -/
def execWrite (a : Addr) (d : List Byte) (s : State) : Host.Outcome State Fault Refusal :=
  match s.phase with
  | .run (.call _ k) => .next (seqFinish (callCmd (.write a d) k s))
  | _ => .fault .notAtCommand

end Sys2Proof.Machine
end

