-- ==== Sys2Proof/Machine/Dispatch.lean ====
section
/-! DEFINITION. One arm per instruction. -/

namespace Sys2Proof.Machine

def exec (i : Instr) (s : State) : Host.Outcome State Fault Refusal :=
  match i with
  | .read a => Sys2Proof.Machine.execRead a s
  | .crc => Sys2Proof.Machine.execCrc s
  | .write a d => Sys2Proof.Machine.execWrite a d s
  | .encode addr => Sys2Proof.Machine.execEncode addr s
  | .decode addr => Sys2Proof.Machine.execDecode addr s
  | .readBlock addr => Sys2Proof.Machine.execReadBlock addr s
  | .writeBlock addr => Sys2Proof.Machine.execWriteBlock addr s
  | .checkCrc addr => Sys2Proof.Machine.execCheckCrc addr s
  | .verify addr => Sys2Proof.Machine.execVerify addr s
  | .flash addr => Sys2Proof.Machine.execFlash addr s

end Sys2Proof.Machine
end

