-- ==== Sys2Proof/Machine/Agents.lean ====
section
/-! DEFINITION. The steps of the four agents (10_state.md R18) and of reset, and how the fetch of an instruction is set up. -/

namespace Sys2Proof.Machine

/-- SEQ's instruction fetch: the latched HOSTOP word at the start of an operation, the wire command at a `Send`. -/
def fetch (s : State) : Option (Except Reject Instr) :=
  match s.phase with
  | .run .start => some (decode s.cfg.ragged (.host s.hostop))
  | .run (.call c _) => some (.ok c.instr)
  | .run (.ret _ _) => none
  | .run (.raise _ _) => none
  | .idle => none
  | .wait _ _ _ => none

/-- SEQ's turn (R29): run the fetched instruction; a reserved HOSTOP word completes with IllegalOp (30_encoding.md R71); where no
instruction is fetched, SEQ goes on from where its take returned (41_response_buffer.md R92), or has no step (log 3). -/
def seqTurn (s : State) : Host.Outcome State Fault Refusal :=
  match fetch s with
  | some (.ok i) => exec i s
  | some (.error _) => .next (abort .illegalOp .primitive s)
  | none =>
    match s.phase with
    | .run _ => .next (seqFinish (seqResume s))
    | .idle => .refused .seqNotEnabled
    | .wait _ _ _ => .refused .seqNotEnabled

/-- HOST's turn (R25): latch the operands and start, when BUSY = 0. -/
def hostIssue (w : BitVec 32) (d : List Byte) (m : List (Addr × Byte)) (s : State) : Host.Outcome State Fault Refusal :=
  if s.busy then .refused .issueWhileBusy
  else if s.cfg.hdataMax < d.length then .refused .hdataTooLong
  else .next (accept { s with hostop := w, hdata := d, img := Memory.ofPairs m })

/-- RXA's turn (41_response_buffer.md R90, R91): append inside a session, discard outside; a full finite buffer sets FAULT. -/
def rxAppend (b : Byte) (s : State) : State :=
  match s.session with
  | none => s
  | some q =>
    match s.cfg.rxCapacity with
    | none => s.setRxq (q.rxq ++ [b])
    | some cap => if cap ≤ q.rxq.length then { s with fault := true } else s.setRxq (q.rxq ++ [b])

/-- TIME's turn (41_response_buffer.md R92, R102): a waiting take counts the tick and polls. -/
def timeTick (s : State) : State :=
  match s.phase with
  | .wait n t k => poll n (t + 1) k s
  | .run _ => s
  | .idle => s

/-- Reset (70_reset_and_hazards.md R156, R158): every field at its reset value, FAULT among them, but the configuration,
which is no state (10_state.md R20), and the agenda still to come (log 5). -/
def resetTurn (s : State) : State :=
  { State.reset with cfg := s.cfg, turns := s.turns }

/-- One agent's turn. -/
def takeTurn (t : Turn) (s : State) : Host.Outcome State Fault Refusal :=
  match t with
  | .issue w d m => hostIssue w d m s
  | .seq => seqTurn s
  | .rx b => .next (rxAppend b s)
  | .tick => .next (timeTick s)
  | .reset => .next (resetTurn s)

/-- The turn when the agenda is empty: SEQ where it has a step, else TIME, so that ticks go on while SEQ waits (R19; log 2). -/
def defaultTurn (s : State) : Turn :=
  match s.phase with
  | .run _ => .seq
  | .idle => .tick
  | .wait _ _ _ => .tick

/-- The state in which SEQ stands at the start of the operation with HOSTOP word `w` (R25). -/
def placeHost (w : BitVec 32) (s : State) : State :=
  accept { s with hostop := w, session := none }

/-- The state in which SEQ stands at the `Send` of `c`, inside an accepted operation with a fresh session. -/
def placeCmd (c : Cmd) (k : Resume) (s : State) : State :=
  goTo c k (openSession (accept s))

/-- SEQ's turn comes next. -/
def seqNext (s : State) : State :=
  match s.turns with
  | [] => s
  | t :: ts => { s with turns := .seq :: t :: ts }

/-- SEQ stands at `i`: a host operation's word in the HOSTOP latch; a wire command at its `Send` inside the primitive
operation that sends it (log 11). -/
def placeInstr (i : Option Instr) (w : BitVec 32) (s : State) : State :=
  match i with
  | some (.read a) => placeCmd (.read a) (.readBlock a) s
  | some .crc => placeCmd .crc (.crcStatus .checkCrc) s
  | some (.write a d) => placeCmd (.write a d) (.writeBlock a) s
  | some (.encode _) => placeHost w s
  | some (.decode _) => placeHost w s
  | some (.readBlock _) => placeHost w s
  | some (.writeBlock _) => placeHost w s
  | some (.checkCrc _) => placeHost w s
  | some (.verify _) => placeHost w s
  | some (.flash _) => placeHost w s
  | none => placeHost w s

end Sys2Proof.Machine
end

