-- ==== Sys2Proof/Machine/Step.lean ====
section
/-! DEFINITION. One step of the machine: one turn of one agent. -/

namespace Sys2Proof.Machine

/-- One step: an ill-formed configuration is refused (00_scope.md R10); else the next agent of the agenda takes its turn. -/
def step (s : State) : Host.Outcome State Fault Refusal :=
  if s.cfg.wf then
    match s.turns with
    | [] => takeTurn (defaultTurn s) s
    | t :: ts => takeTurn t { s with turns := ts }
  else .refused .illFormedConfig

/-- `s` with the instruction of a table word placed where SEQ runs next (log 11). -/
def State.withFetchWord (s : State) (nbits w : Nat) : State :=
  seqNext (placeInstr (decodeTableWord nbits w) (BitVec.ofNat 32 w) s)

end Sys2Proof.Machine
end

