-- ==== Sys2Proof/Safety.lean ====
section
/-! DEFINITION. What counts as a safe state and a good end, in the terms the statements use. -/

namespace Sys2Proof.Machine

/-- The length of the response that SEQ waits for at `k` (30_encoding.md R64, R65). -/
def Resume.expects : Resume → Nat
  | .readBlock _ => Config.readResp
  | .writeBlock _ => Config.writeResp
  | .crcTable _ => Config.writeResp
  | .crcStatus _ => Config.crcResp
  | .rangeRead _ _ _ _ => Config.readResp
  | .flashWrite _ _ _ => Config.writeResp

/-- The wire command whose response SEQ waits for at `k`: WRITE_BLOCK and CHECK_CRC send the latched HDATA (R113, R114). -/
def Resume.awaits (cfg : Config) (hdata : List Byte) : Resume → Cmd
  | .readBlock a => .read a
  | .writeBlock a => .write a hdata
  | .crcTable .checkCrc => .write cfg.map.crcStart hdata
  | .crcTable (.flash img) => .write cfg.map.crcStart img.crct
  | .crcStatus _ => .crc
  | .rangeRead _ A _ _ => .read (counterAddr A)
  | .flashWrite A K img => .write (counterAddr A) (chunkAt img.app K)

/-- The region snapshots have their regions' sizes (43_image_model.md R120). -/
def Image.fits (map : MemMap) (img : Image) : Prop :=
  img.app.length = map.appEnd.toNat + 1 - map.appStart.toNat ∧
  img.crct.length = Config.block ∧
  img.nvm.length = map.nvmEnd.toNat + 1 - map.nvmStart.toNat

/-- The regions a `CheckCrc` carries for its caller have their sizes. -/
def CrcUser.fits (map : MemMap) : CrcUser → Prop
  | .checkCrc => True
  | .flash img => img.fits map

/-- The working registers agree with each other: the counter `A` stands `len(VBUF)` or `K` bytes after its region's start,
a whole number of blocks, and not past the region's end (44_orchestrator.md R127, R133). -/
def Resume.fits (map : MemMap) : Resume → Prop
  | .readBlock _ => True
  | .writeBlock _ => True
  | .crcTable u => u.fits map
  | .crcStatus u => u.fits map
  | .rangeRead p A VBUF img =>
    img.fits map ∧ A.toNat = (p.first map).toNat + VBUF.length ∧ 64 ∣ VBUF.length ∧ A.toNat ≤ (p.last map).toNat
  | .flashWrite A K img => img.fits map ∧ A.toNat = map.appStart.toNat + K ∧ 64 ∣ K ∧ K < img.app.length

/-- What a control point between two agent steps satisfies: SEQ rests only where it is idle, at the start of an operation,
in a take that has not timed out, or where a take has just returned (10_state.md R28, R29, 41_response_buffer.md R96). -/
def Phase.fits (cfg : Config) : Phase → Prop
  | .idle => True
  | .run .start => True
  | .run (.ret .timedOut k) => k.fits cfg.map
  | .run (.ret (.ok r) k) => r.length = k.expects ∧ k.fits cfg.map
  | .run (.call _ _) => False
  | .run (.raise _ _) => False
  | .wait n t k => n = k.expects ∧ t < cfg.timeoutTicks ∧ k.fits cfg.map

/-- The control points inside a session. -/
def Phase.inSession : Phase → Bool
  | .idle => false
  | .run .start => false
  | .run (.ret _ _) => true
  | .run (.call _ _) => true
  | .run (.raise _ _) => true
  | .wait _ _ _ => true

/-- The resume point of the exchange under way, if there is one. -/
def Phase.pending : Phase → Option Resume
  | .idle => none
  | .run .start => none
  | .run (.ret _ k) => some k
  | .run (.call _ k) => some k
  | .run (.raise _ _) => none
  | .wait _ _ k => some k

/-- The invariant of the machine between two steps. -/
structure State.Inv (s : State) : Prop where
  /-- BUSY = 1 exactly while an operation runs (10_state.md R25, R26). -/
  busy_iff : s.busy = true ↔ s.phase ≠ .idle
  /-- BUSY and DONE are never both 1 (R21). -/
  done_not_busy : s.done = true → s.busy = false
  /-- A session exists exactly between `Open` and `Close` (44_orchestrator.md R125). -/
  session_iff : s.sess = s.phase.inSession
  /-- The transport was opened at BAUD (R125). -/
  baud_eq : ∀ q, s.session = some q → q.baud = Config.baud
  /-- RESULT is 0 and RDATA is [] while BUSY = 1 (60_exceptions.md R155). -/
  outputs_clear : s.busy = true → s.result = 0 ∧ s.rdata = []
  /-- IMG keeps its canonical form. -/
  img_wf : s.img.wf = true
  /-- HDATA has at most HDATA_MAX bytes (10_state.md R23). -/
  hdata_le : s.hdata.length ≤ s.cfg.hdataMax
  /-- A finite buffer is never over its capacity (41_response_buffer.md R91). -/
  rx_le : ∀ cap, s.cfg.rxCapacity = some cap → s.rxq.length ≤ cap
  /-- The last bytes sent are the wire form of the command whose response is outstanding (20_memory.md R50). -/
  sent : ∀ k, s.phase.pending = some k →
    s.txlog.getLast? = some (wireForm s.cfg (cmdBytes s.cfg (k.awaits s.cfg s.hdata)))
  /-- The control point and its working registers are consistent. -/
  phase_fits : s.phase.fits s.cfg

/-- `n` steps of the machine, stopping at the first fault or refusal. -/
def runSteps (n : Nat) (s : State) : Host.Outcome State Fault Refusal := Host.Core.run Sys2Proof.core n s

/-- A good end: an operation has completed with success, and no received byte was lost since the last reset (10_state.md R26,
R33, 70_reset_and_hazards.md R156; log 5). -/
def State.GoodEnd (s : State) : Prop :=
  s.phase = .idle ∧ s.done = true ∧ s.result = 0 ∧ s.fault = false

end Sys2Proof.Machine
end

