-- ==== Sys2Proof/Certificates/Slice0/Obligations.lean ====
section
/-! DEFINITION. The statements for the provers, one per obligation of OBLIGATIONS.json. -/

open Sys2Proof Sys2Proof.Machine

/-! ### Vocabulary of the statements -/

namespace Sys2Proof.Claims

/-- ⌈n / 64⌉, the number of blocks of `n` bytes. -/
def blocks (n : Nat) : Nat := (n + 63) / 64

/-- The payload `p` with every special byte escaped, written out from R76. -/
def escaped (cfg : Config) (p : List Byte) : List Byte :=
  p.flatMap fun b => if b ∈ cfg.escset then [cfg.esc, b ^^^ cfg.xmask] else [b]

/-- The code of a decode reason, written out from R83. -/
def reasonCode : DecodeReason → Byte
  | .noOpenFlag => 0x01
  | .unterminated => 0x02
  | .escapeFlag => 0x03
  | .badEscape => 0x04
  | .trailingBytes => 0x05
  | .rawSpecial => 0x06

/-- The bytes of READ `a` on the wire before framing, written out from R59. -/
def readBytes (a : Addr) : List Byte := [0x01, 0x04, addrHi a, addrLo a]

/-- The bytes of WRITE `a, d` before framing, written out from R61 and R107. -/
def writeBytes (cfg : Config) (a : Addr) (d : List Byte) : List Byte := [0x04, 0x44, addrHi a, addrLo a] ++ pad cfg d

/-- The sends of a read pass of `n` blocks from `a` on (R128). -/
def readSends (cfg : Config) (a : Addr) (n : Nat) : List (List Byte) :=
  (List.range n).map fun j => wireForm cfg (readBytes (addrAt a (64 * j)))

/-- The sends of a write pass of `app` from `a` on (R132, R135). -/
def writeSends (cfg : Config) (a : Addr) (app : List Byte) : List (List Byte) :=
  (List.range (blocks app.length)).map fun j =>
    wireForm cfg (writeBytes cfg (addrAt a (64 * j)) ((app.drop (64 * j)).take 64))

/-- The first index at which the bytes read differ from the expected ones. -/
def firstDifference (X V : List Byte) : Option Nat := (List.range X.length).find? fun i => V[i]? != X[i]?

/-- A device's one-byte answer `st`, one tick, one SEQ step. -/
def answer (st : Byte) : List Turn := [.rx st, .tick, .seq]

/-- A device's READ answer with status `st` and block `d`, one tick, one SEQ step. -/
def answerRead (st : Byte) (d : List Byte) : List Turn := (st :: d).map .rx ++ [.tick, .seq]

/-- A device that sends `r` and then nothing until the take has timed out, then one SEQ step. -/
def silence (T : Nat) (r : List Byte) : List Turn := r.map .rx ++ List.replicate T .tick ++ [.seq]

/-- An operation that has just ended in state `s`, but for what `s` already records. -/
def ended (s : State) (ts : List Turn) (result : BitVec 32) (rdata : List Byte) : State :=
  { s with turns := ts, busy := false, done := true, result := result, rdata := rdata, session := none, phase := .idle }

/-- The status bytes of a successful or failed exchange as a result word: OK, or CODE with SV = 1 and INFO = status. -/
def statusWord (code : BitVec 4) (st : Byte) (a : Addr) : BitVec 32 :=
  if st = 0 then 0 else packResult code false true st a

/-- SEQ stands at the start of the accepted operation with word `w`, on a well-formed build with the source's unbounded
buffer, and the agenda is `ts`. -/
structure Accepted (s : State) (w : BitVec 32) (ts : List Turn) : Prop where
  wf : s.cfg.wf = true
  unbounded : s.cfg.rxCapacity = none
  at_start : s.phase = .run .start
  word : s.hostop = w
  turns : s.turns = ts

end Sys2Proof.Claims

open Sys2Proof.Claims

/-! ### Encodings -/

/-- One word of every row, written out from R59 to R61 and R69, R70, decodes to the row's instruction. -/
def Obligations.TableWordsDecode : Prop :=
  decode .zeroPad (.wire [0x01, 0x04, 0x84, 0x00]) = .ok (.read 0x8400) ∧
  decode .zeroPad (.wire [0x03, 0x02]) = .ok .crc ∧
  decode .asIs (.wire [0x04, 0x44, 0x84, 0x40, 0x7E, 0x11]) = .ok (.write 0x8440 [0x7E, 0x11]) ∧
  decode .zeroPad (.host 0x84000001) = .ok (.encode 0x8400) ∧
  decode .zeroPad (.host 0x00000002) = .ok (.decode 0) ∧
  decode .zeroPad (.host 0x84000003) = .ok (.readBlock 0x8400) ∧
  decode .zeroPad (.host 0x84800004) = .ok (.writeBlock 0x8480) ∧
  decode .zeroPad (.host 0x00000005) = .ok (.checkCrc 0) ∧
  decode .zeroPad (.host 0x00000006) = .ok (.verify 0) ∧
  decode .zeroPad (.host 0xFFFF0007) = .ok (.flash 0xFFFF)

/-- Decode of encode is the instruction, for every well-formed instruction of all ten rows, every operand at every value. -/
def Obligations.DecodeEncodeAgree : Prop :=
  ∀ (pol : RaggedPolicy) (i : Instr), i.wf pol = true → decode pol (encode i) = .ok i

/-- What decodes to an instruction is that instruction's code, and the instruction is well-formed: no code is read as
something it does not encode. -/
def Obligations.DecodedCodesAreEncodings : Prop :=
  ∀ (pol : RaggedPolicy) (c : Code) (i : Instr), decode pol c = .ok i → encode i = c ∧ i.wf pol = true

/-- R71: a reserved HOSTOP word completes in one SEQ step with IllegalOp and every other field 0; no session, no send, no
report, RDATA = []. -/
def Obligations.ReservedWordCompletesIllegalOp : Prop :=
  ∀ (s : State) (ts : List Turn), s.cfg.wf = true → s.phase = .run .start → s.session = none → s.turns = .seq :: ts →
    (s.hostop.extractLsb' 0 4 = 0 ∨ 8 ≤ (s.hostop.extractLsb' 0 4).toNat ∨ s.hostop.extractLsb' 4 12 ≠ 0) →
    step s = .next { s with turns := ts, busy := false, done := true, result := 0x00000008, rdata := [], phase := .idle }

/-! ### Frame codec -/

/-- R85: the round-trip laws of the frame codec. -/
def Obligations.FrameRoundTripLaws : Prop :=
  ∀ cfg : Config, cfg.codecWf = true →
    (∀ p, decodeFrame cfg (encodeFrame cfg p) = .ok p) ∧
    (∀ f p, decodeFrame cfg f = .ok p → f = encodeFrame cfg p) ∧
    (∀ p p', encodeFrame cfg p = encodeFrame cfg p' → p = p')

/-- R80: where `FLAG` and `ESC` occur in a frame and in a wire form. -/
def Obligations.FrameDelimiterPositions : Prop :=
  ∀ (cfg : Config) (p : List Byte), cfg.codecWf = true →
    (∀ i, (encodeFrame cfg p)[i]? = some cfg.flag ↔ i = 0 ∨ i + 1 = (encodeFrame cfg p).length) ∧
    (cfg.dropFirst = true → ∀ i, (wireForm cfg p)[i]? = some cfg.flag ↔ i + 1 = (wireForm cfg p).length) ∧
    (∀ i, (encodeFrame cfg p)[i]? = some cfg.esc →
      ∃ b ∈ p, b ∈ cfg.escset ∧ (encodeFrame cfg p)[i + 1]? = some (b ^^^ cfg.xmask))

/-- R81: frame and wire lengths, and their bounds for the three commands under the defaults. -/
def Obligations.FrameLengths : Prop :=
  (∀ (cfg : Config) (p : List Byte),
    (encodeFrame cfg p).length = p.length + 2 + p.countP (fun b => decide (b ∈ cfg.escset)) ∧
    (cfg.dropFirst = true → (wireForm cfg p).length = p.length + 1 + p.countP (fun b => decide (b ∈ cfg.escset)))) ∧
  (∀ a : Addr, 5 ≤ (wireForm Config.default (readBytes a)).length ∧ (wireForm Config.default (readBytes a)).length ≤ 7) ∧
  (wireForm Config.default [0x03, 0x02]).length = 3 ∧
  (∀ (a : Addr) (d : List Byte), d.length = 64 →
    69 ≤ (wireForm Config.default (writeBytes Config.default a d)).length ∧
    (wireForm Config.default (writeBytes Config.default a d)).length ≤ 135) ∧
  (∀ c : Cmd, (∀ a d, c = .write a d → d.length = 64) →
    (encodeFrame Config.default (cmdBytes Config.default c)).length ≤ 136) ∧
  (∃ (a : Addr) (d : List Byte), d.length = 64 ∧
    (encodeFrame Config.default (writeBytes Config.default a d)).length = 136)

/-- The wire form with `FLAG` put back in front decodes to the command (40_frame_codec.md section 2). -/
def Obligations.WireFormDecodes : Prop :=
  ∀ (cfg : Config) (p : List Byte), cfg.codecWf = true → cfg.dropFirst = true →
    decodeFrame cfg (cfg.flag :: wireForm cfg p) = .ok p

/-- For each of the six reasons, exactly the frames that give it (from R82 and R83): `FLAG`, then an escaped payload as the
longest valid prefix, then the bytes at fault: none or a lone `ESC`; `ESC FLAG`; `ESC` and a byte that escapes nothing; a
closing `FLAG` with more bytes after it; a raw byte of `ESCSET` other than `FLAG` and `ESC`. -/
def Obligations.DecodeReasonsCharacterised : Prop :=
  ∀ (cfg : Config) (f : List Byte), cfg.codecWf = true →
    (decodeFrame cfg f = .error .noOpenFlag ↔ f.head? ≠ some cfg.flag) ∧
    (decodeFrame cfg f = .error .unterminated ↔
      ∃ p, f = cfg.flag :: escaped cfg p ∨ f = cfg.flag :: (escaped cfg p ++ [cfg.esc])) ∧
    (decodeFrame cfg f = .error .escapeFlag ↔ ∃ p xs, f = cfg.flag :: (escaped cfg p ++ cfg.esc :: cfg.flag :: xs)) ∧
    (decodeFrame cfg f = .error .badEscape ↔
      ∃ p c xs, f = cfg.flag :: (escaped cfg p ++ cfg.esc :: c :: xs) ∧ c ≠ cfg.flag ∧ c ^^^ cfg.xmask ∉ cfg.escset) ∧
    (decodeFrame cfg f = .error .trailingBytes ↔ ∃ p x xs, f = cfg.flag :: (escaped cfg p ++ cfg.flag :: x :: xs)) ∧
    (decodeFrame cfg f = .error .rawSpecial ↔
      ∃ p b xs, f = cfg.flag :: (escaped cfg p ++ b :: xs) ∧ b ∈ cfg.escset ∧ b ≠ cfg.flag ∧ b ≠ cfg.esc)

/-- R87: ENCODE returns the full frame of HDATA in one step, with RESULT 0; nothing else changes. -/
def Obligations.EncodeReturnsFrame : Prop :=
  ∀ (addr : Addr) (s : State),
    exec (.encode addr) s = .next { s with
      rdata := [s.cfg.flag] ++ s.hdata.flatMap (fun b => if b ∈ s.cfg.escset then [s.cfg.esc, b ^^^ s.cfg.xmask] else [b])
        ++ [s.cfg.flag],
      result := 0x00000000, busy := false, done := true, phase := .idle }

/-- R88: DECODE returns the payload, or DecodeError with the reason's code (R83's table) in INFO and TO = SV = 0, ADDR = 0. -/
def Obligations.DecodeReturnsPayloadOrReason : Prop :=
  ∀ (addr : Addr) (s : State), s.session = none →
    (∀ p, decodeFrame s.cfg s.hdata = .ok p →
      exec (.decode addr) s = .next { s with rdata := p, result := 0, busy := false, done := true, phase := .idle }) ∧
    (∀ x, decodeFrame s.cfg s.hdata = .error x →
      exec (.decode addr) s = .next { s with
        rdata := [], result := packResult 0x9 false false (reasonCode x) 0, busy := false, done := true, phase := .idle })

/-! ### Wire commands -/

/-- READ (from R59, R64 and R106): where SEQ stands at a `Send`, of whatever command (log 12), it sends
`[0x01, 0x04, a[15:8], a[7:0]]` in wire form and takes 65 bytes: SEQ waits, or its step ends with the 65 oldest bytes taken
(R92, log 9). -/
def Obligations.ReadSendsAndTakes : Prop :=
  ∀ (a : Addr) (c : Cmd) (k : Resume) (s : State) (q : Session),
    s.phase = .run (.call c k) → s.session = some q → 1 ≤ s.cfg.timeoutTicks →
    (q.rxq.length < 65 → exec (.read a) s = .next { s with
      txlog := s.txlog ++ [wireForm s.cfg [0x01, 0x04, a.extractLsb' 8 8, a.extractLsb' 0 8]], phase := .wait 65 0 k }) ∧
    (65 ≤ q.rxq.length → exec (.read a) s = .next { s with
      txlog := s.txlog ++ [wireForm s.cfg [0x01, 0x04, a.extractLsb' 8 8, a.extractLsb' 0 8]],
      session := some { q with rxq := q.rxq.drop 65 }, phase := .run (.ret (.ok (q.rxq.take 65)) k) })

/-- CRC (from R60, R65 and R109): where SEQ stands at a `Send`, of whatever command (log 12), it sends `[0x03, 0x02]` in wire
form and takes one byte: SEQ waits, or its step ends with the oldest byte taken (R92, log 9). -/
def Obligations.CrcSendsAndTakes : Prop :=
  ∀ (c : Cmd) (k : Resume) (s : State) (q : Session),
    s.phase = .run (.call c k) → s.session = some q → 1 ≤ s.cfg.timeoutTicks →
    (q.rxq = [] → exec .crc s = .next { s with
      txlog := s.txlog ++ [wireForm s.cfg [0x03, 0x02]], phase := .wait 1 0 k }) ∧
    (∀ st rest, q.rxq = st :: rest → exec .crc s = .next { s with
      txlog := s.txlog ++ [wireForm s.cfg [0x03, 0x02]],
      session := some { q with rxq := rest }, phase := .run (.ret (.ok [st]) k) })

/-- WRITE (from R61, R65, R107 and R108): where SEQ stands at a `Send`, of whatever command (log 12), it sends the header and
the data, padded to 64 bytes under ZERO_PAD and as they are under AS_IS, with length byte 0x44, and takes one byte: SEQ waits,
or its step ends with the oldest byte taken (R92, log 9); data of more than 64 bytes end the operation with InvalidBlockSize
before any send. -/
def Obligations.WriteSendsAndTakes : Prop :=
  ∀ (a : Addr) (d : List Byte) (c : Cmd) (k : Resume) (s : State) (q : Session) (sent : List Byte),
    s.phase = .run (.call c k) → s.session = some q → 1 ≤ s.cfg.timeoutTicks →
    sent = wireForm s.cfg ([0x04, 0x44, a.extractLsb' 8 8, a.extractLsb' 0 8] ++
      (if s.cfg.ragged = .zeroPad then d ++ List.replicate (64 - d.length) s.cfg.padByte else d)) →
    (d.length ≤ 64 → q.rxq = [] →
      exec (.write a d) s = .next { s with txlog := s.txlog ++ [sent], phase := .wait 1 0 k }) ∧
    (∀ st rest, d.length ≤ 64 → q.rxq = st :: rest → exec (.write a d) s = .next { s with
      txlog := s.txlog ++ [sent], session := some { q with rxq := rest }, phase := .run (.ret (.ok [st]) k) }) ∧
    (64 < d.length → exec (.write a d) s = .next (abort .invalidBlockSize k.owner s))

/-- The stop of a wire command: exactly where SEQ does not stand at a `Send`, which no step of the machine runs it at (the
model's choice, log 12). -/
def Obligations.WireCommandsStopOnlyOffTheirSend : Prop :=
  ∀ (c : Cmd) (s : State),
    (exec c.instr s = .fault .notAtCommand ↔ ∀ c' k, s.phase ≠ .run (.call c' k))

/-! ### Host operations, first step -/

/-- READ_BLOCK opens a session, sends its READ and waits for 65 bytes. -/
def Obligations.ReadBlockStarts : Prop :=
  ∀ (addr : Addr) (s : State), 1 ≤ s.cfg.timeoutTicks →
    exec (.readBlock addr) s = .next { s with
      session := some { baud := 57600, rxq := [] }, txlog := s.txlog ++ [wireForm s.cfg (readBytes addr)],
      phase := .wait 65 0 (.readBlock addr) }

/-- WRITE_BLOCK with at most 64 bytes opens a session, sends its WRITE and waits for a byte; with more it completes with
InvalidBlockSize, no send and no session. -/
def Obligations.WriteBlockStarts : Prop :=
  ∀ (addr : Addr) (s : State), 1 ≤ s.cfg.timeoutTicks → s.session = none →
    (s.hdata.length ≤ 64 → exec (.writeBlock addr) s = .next { s with
      session := some { baud := 57600, rxq := [] }, txlog := s.txlog ++ [wireForm s.cfg (writeBytes s.cfg addr s.hdata)],
      phase := .wait 1 0 (.writeBlock addr) }) ∧
    (64 < s.hdata.length → exec (.writeBlock addr) s = .next { s with
      result := 0x00000001, rdata := [], busy := false, done := true, phase := .idle })

/-- CHECK_CRC with 64 bytes opens a session, sends the table WRITE at `crc_start` and waits for a byte; with any other size
it completes with InvalidCrcSize, no send and no session. -/
def Obligations.CheckCrcStarts : Prop :=
  ∀ (addr : Addr) (s : State), 1 ≤ s.cfg.timeoutTicks → s.session = none →
    (s.hdata.length = 64 → exec (.checkCrc addr) s = .next { s with
      session := some { baud := 57600, rxq := [] },
      txlog := s.txlog ++ [wireForm s.cfg ([0x04, 0x44, addrHi s.cfg.map.crcStart, addrLo s.cfg.map.crcStart] ++ s.hdata)],
      phase := .wait 1 0 (.crcTable .checkCrc) }) ∧
    (s.hdata.length ≠ 64 → exec (.checkCrc addr) s = .next { s with
      result := 0x00000002, rdata := [], busy := false, done := true, phase := .idle })

/-- VERIFY of an image that lacks a region byte completes with MalformedImage after its two events, with no session; else it
opens a session, reports VerifyStart, sends the first READ and waits. -/
def Obligations.VerifyStarts : Prop :=
  ∀ (addr : Addr) (s : State), s.cfg.wf = true → s.session = none →
    (load s.cfg.map s.img = none → exec (.verify addr) s = .next { s with
      result := 0x00000007, rdata := [], busy := false, done := true, phase := .idle,
      plog := s.plog ++ [.error .malformedImage, .verifyFailed] }) ∧
    (∀ img, load s.cfg.map s.img = some img → exec (.verify addr) s = .next { s with
      session := some { baud := 57600, rxq := [] }, plog := s.plog ++ [.verifyStart],
      txlog := s.txlog ++ [wireForm s.cfg (readBytes s.cfg.map.appStart)],
      phase := .wait 65 0 (.rangeRead .application (s.cfg.map.appStart.zeroExtend 17) [] img) })

/-- FLASH of an image that lacks a region byte completes with MalformedImage after its two events, with no session; else it
opens a session, reports the byte count, sends the first chunk and waits. -/
def Obligations.FlashStarts : Prop :=
  ∀ (addr : Addr) (s : State), s.cfg.wf = true → s.session = none →
    (load s.cfg.map s.img = none → exec (.flash addr) s = .next { s with
      result := 0x00000007, rdata := [], busy := false, done := true, phase := .idle,
      plog := s.plog ++ [.error .malformedImage, .flashFailed] }) ∧
    (∀ img, load s.cfg.map s.img = some img → exec (.flash addr) s = .next { s with
      session := some { baud := 57600, rxq := [] }, plog := s.plog ++ [.byteCount img.app.length],
      txlog := s.txlog ++ [wireForm s.cfg (writeBytes s.cfg s.cfg.map.appStart (img.app.take 64))],
      phase := .wait 1 0 (.flashWrite (s.cfg.map.appStart.zeroExtend 17) 0 img) })

/-! ### Host operations, whole runs -/

/-- READ_BLOCK (from R112, for two timings of the device): where the whole response arrives before the first tick it completes
with the block, or with BlockReadFailed and the device's status; where the response does not arrive whole it completes with
BlockReadFailed and TO. -/
def Obligations.ReadBlockRuns : Prop :=
  ∀ (s : State) (a : Addr) (ts : List Turn),
    (∀ st d, d.length = 64 → Accepted s (hostWord a 0x3) (.seq :: answerRead st d ++ ts) →
      runSteps 68 s = .next { ended s ts (statusWord 0x3 st a) (if st = 0 then d else []) with
        txlog := s.txlog ++ [wireForm s.cfg (readBytes a)] }) ∧
    (∀ r, r.length < 65 → Accepted s (hostWord a 0x3) (.seq :: silence s.cfg.timeoutTicks r ++ ts) →
      runSteps (s.cfg.timeoutTicks + r.length + 2) s = .next { ended s ts (packResult 0x3 true false 0 a) [] with
        txlog := s.txlog ++ [wireForm s.cfg (readBytes a)] })

/-- WRITE_BLOCK (from R113, for two timings of the device): one of at most 64 bytes completes with OK, with BlockWriteFailed and the device's status, or with
BlockWriteFailed and TO; one of more completes with InvalidBlockSize and sends nothing. -/
def Obligations.WriteBlockRuns : Prop :=
  ∀ (s : State) (a : Addr) (ts : List Turn),
    (∀ st, s.hdata.length ≤ 64 → Accepted s (hostWord a 0x4) (.seq :: answer st ++ ts) →
      runSteps 4 s = .next { ended s ts (statusWord 0x4 st a) [] with
        txlog := s.txlog ++ [wireForm s.cfg (writeBytes s.cfg a s.hdata)] }) ∧
    (s.hdata.length ≤ 64 → Accepted s (hostWord a 0x4) (.seq :: silence s.cfg.timeoutTicks [] ++ ts) →
      runSteps (s.cfg.timeoutTicks + 2) s = .next { ended s ts (packResult 0x4 true false 0 a) [] with
        txlog := s.txlog ++ [wireForm s.cfg (writeBytes s.cfg a s.hdata)] }) ∧
    (64 < s.hdata.length → Accepted s (hostWord a 0x4) (.seq :: ts) →
      runSteps 1 s = .next (ended s ts 0x00000001 []))

/-- CHECK_CRC (from R114 and R109, for two timings of the device): one of a 64-byte table writes it at `crc_start`, asks for the check and completes with OK, with the
failing exchange's status, or with TO; the CRC command is sent only after a successful table WRITE; any other size
completes with InvalidCrcSize and sends nothing. -/
def Obligations.CheckCrcRuns : Prop :=
  ∀ (s : State) (addr : Addr) (ts : List Turn) (table : List Byte),
    table = wireForm s.cfg ([0x04, 0x44, addrHi s.cfg.map.crcStart, addrLo s.cfg.map.crcStart] ++ s.hdata) →
    (∀ st, s.hdata.length = 64 → Accepted s (hostWord addr 0x5) (.seq :: answer 0 ++ answer st ++ ts) →
      runSteps 7 s = .next { ended s ts (statusWord 0x5 st 0) [] with
        txlog := s.txlog ++ [table, wireForm s.cfg [0x03, 0x02]] }) ∧
    (s.hdata.length = 64 → Accepted s (hostWord addr 0x5) (.seq :: answer 0 ++ silence s.cfg.timeoutTicks [] ++ ts) →
      runSteps (s.cfg.timeoutTicks + 5) s = .next { ended s ts (packResult 0x5 true false 0 0) [] with
        txlog := s.txlog ++ [table, wireForm s.cfg [0x03, 0x02]] }) ∧
    (∀ st, st ≠ 0 → s.hdata.length = 64 → Accepted s (hostWord addr 0x5) (.seq :: answer st ++ ts) →
      runSteps 4 s = .next { ended s ts (packResult 0x4 false true st s.cfg.map.crcStart) [] with
        txlog := s.txlog ++ [table] }) ∧
    (s.hdata.length = 64 → Accepted s (hostWord addr 0x5) (.seq :: silence s.cfg.timeoutTicks [] ++ ts) →
      runSteps (s.cfg.timeoutTicks + 2) s = .next { ended s ts (packResult 0x4 true false 0 s.cfg.map.crcStart) [] with
        txlog := s.txlog ++ [table] }) ∧
    (s.hdata.length ≠ 64 → Accepted s (hostWord addr 0x5) (.seq :: ts) →
      runSteps 1 s = .next (ended s ts 0x00000002 []))

/-- VERIFY against a device that answers every READ with status 0x00 and the block `bs[j]`: every block is read, in order,
before any byte is compared; the outcome is OK, or VerificationMismatch at the first differing address (R127 to R131). -/
def Obligations.VerifyRuns : Prop :=
  ∀ (s : State) (addr : Addr) (img : Image) (bs : List (List Byte)) (ts : List Turn),
    load s.cfg.map s.img = some img → bs.length = blocks img.app.length → (∀ b ∈ bs, b.length = 64) →
    Accepted s (hostWord addr 0x6) (.seq :: bs.flatMap (answerRead 0) ++ ts) →
    runSteps (67 * bs.length + 1) s = .next { ended s ts
        (match firstDifference img.app bs.flatten with
          | none => 0
          | some i => packResult 0x6 false false 0 (addrAt s.cfg.map.appStart i)) [] with
      txlog := s.txlog ++ readSends s.cfg s.cfg.map.appStart bs.length,
      plog := s.plog ++ [.verifyStart] ++ List.replicate bs.length .dot ++
        (match firstDifference img.app bs.flatten with
          | none => [.done]
          | some i => [.error (.verificationMismatch (addrAt s.cfg.map.appStart i)), .verifyFailed]) }

/-- FLASH against a device that answers every command with status 0x00 and the settings READs with the blocks `bs[j]`: the
application chunks in address order, the table, the CRC command, the settings READs; the events of R133; the outcome is OK,
or VerificationMismatch at the first differing settings address. -/
def Obligations.FlashRuns : Prop :=
  ∀ (s : State) (addr : Addr) (img : Image) (bs : List (List Byte)) (ts : List Turn),
    load s.cfg.map s.img = some img → bs.length = blocks img.nvm.length → (∀ b ∈ bs, b.length = 64) →
    Accepted s (hostWord addr 0x7)
      (.seq :: (List.replicate (blocks img.app.length + 2) (answer 0)).flatten ++ bs.flatMap (answerRead 0) ++ ts) →
    runSteps (3 * (blocks img.app.length + 2) + 67 * bs.length + 1) s = .next { ended s ts
        (match firstDifference img.nvm bs.flatten with
          | none => 0
          | some i => packResult 0x6 false false 0 (addrAt s.cfg.map.nvmStart i)) [] with
      txlog := s.txlog ++ writeSends s.cfg s.cfg.map.appStart img.app ++
        [wireForm s.cfg (writeBytes s.cfg s.cfg.map.crcStart img.crct), wireForm s.cfg [0x03, 0x02]] ++
        readSends s.cfg s.cfg.map.nvmStart bs.length,
      plog := s.plog ++ [.byteCount img.app.length] ++ List.replicate (blocks img.app.length) .dot ++
        [.writeDone, .verifyStart] ++ List.replicate bs.length .dot ++
        (match firstDifference img.nvm bs.flatten with
          | none => [.done]
          | some i => [.error (.verificationMismatch (addrAt s.cfg.map.nvmStart i)), .flashFailed]) }

/-! ### Response buffer, time, host -/

/-- R94: a take that succeeds removes exactly the `n` oldest bytes. -/
def Obligations.TakeRemovesExactlyTheOldest : Prop :=
  ∀ (n : Nat) (q r rest : List Byte), takeBytes n q = some (r, rest) → r.length = n ∧ r ++ rest = q

/-- R102, with R92's tick-poll: a tick in a wait polls once, the data test before the timeout test; any other tick changes
no state. -/
def Obligations.TickPollsOnce : Prop :=
  ∀ (s : State) (ts : List Turn), s.cfg.wf = true → s.turns = .tick :: ts →
    (∀ n t k q, s.phase = .wait n t k → s.session = some q →
      (n ≤ q.rxq.length → step s = .next { s with
        turns := ts, session := some { q with rxq := q.rxq.drop n }, phase := .run (.ret (.ok (q.rxq.take n)) k) }) ∧
      (q.rxq.length < n → s.cfg.timeoutTicks ≤ t + 1 →
        step s = .next { s with turns := ts, phase := .run (.ret .timedOut k) }) ∧
      (q.rxq.length < n → t + 1 < s.cfg.timeoutTicks →
        step s = .next { s with turns := ts, phase := .wait n (t + 1) k })) ∧
    ((∀ n t k, s.phase ≠ .wait n t k) → step s = .next { s with turns := ts })

/-- A take that times out leaves the buffer and the session as they were at the poll (from R95). -/
def Obligations.TimedOutTakeKeepsBuffer : Prop :=
  ∀ (s s' : State) (n t : Nat) (k k' : Resume), s.phase = .wait n t k → step s = .next s' →
    s'.phase = .run (.ret .timedOut k') → s'.rxq = s.rxq ∧ s'.session = s.session

/-- Every take ends after at most `T` ticks, whatever bytes arrive meanwhile (41_response_buffer.md section 2). -/
def Obligations.EveryTakeEnds : Prop :=
  ∀ (s : State) (n t : Nat) (k : Resume) (evs ts : List Turn),
    s.cfg.wf = true → s.phase = .wait n t k → s.turns = evs ++ ts →
    (∀ x ∈ evs, x = .tick ∨ ∃ b, x = .rx b) → t < s.cfg.timeoutTicks → s.cfg.timeoutTicks ≤ t + evs.count .tick →
    ∃ m s' r, m ≤ evs.length ∧ runSteps m s = .next s' ∧ s'.phase = .run (.ret r k)

/-- R90: a byte that arrives inside a session goes to the tail of the unbounded buffer; outside a session it is discarded,
whatever the build's capacity. -/
def Obligations.ArrivingByteIsAppendedOrDiscarded : Prop :=
  ∀ (s : State) (b : Byte) (ts : List Turn), s.cfg.wf = true → s.turns = .rx b :: ts →
    (∀ q, s.cfg.rxCapacity = none → s.session = some q →
      step s = .next { s with turns := ts, session := some { q with rxq := q.rxq ++ [b] } }) ∧
    (s.session = none → step s = .next { s with turns := ts })

/-- R91: with a finite capacity, a byte that finds the buffer full is not stored and sets FAULT; any other byte is stored. -/
def Obligations.FullBufferSetsFault : Prop :=
  ∀ (s : State) (b : Byte) (ts : List Turn) (q : Session) (cap : Nat),
    s.cfg.wf = true → s.cfg.rxCapacity = some cap → s.session = some q → s.turns = .rx b :: ts →
    (q.rxq.length = cap → step s = .next { s with turns := ts, fault := true }) ∧
    (q.rxq.length < cap →
      step s = .next { s with turns := ts, session := some { q with rxq := q.rxq ++ [b] } })

/-- An issue (from R25 and U15): while BUSY = 0 and HDATA has at most HDATA_MAX bytes it latches the operands, clears the
outputs and puts SEQ at the start; while BUSY = 1, and for longer HDATA, there is no issue step, which the model refuses by
name (log 3). -/
def Obligations.IssueLatchesAndStarts : Prop :=
  ∀ (s : State) (w : BitVec 32) (d : List Byte) (m : List (Addr × Byte)) (ts : List Turn),
    s.cfg.wf = true → s.turns = .issue w d m :: ts →
    (s.busy = false → d.length ≤ s.cfg.hdataMax → step s = .next { s with
      turns := ts, hostop := w, hdata := d, img := Memory.ofPairs m, busy := true, done := false, result := 0, rdata := [],
      phase := .run .start }) ∧
    (s.busy = true → step s = .refused .issueWhileBusy) ∧
    (s.busy = false → s.cfg.hdataMax < d.length → step s = .refused .hdataTooLong)

/-- The latched image reads as the map the host presented: the byte of the first pair with that address, else none (R115;
the order of pairs of one address is the model's choice, log 10). -/
def Obligations.LatchedImageReads : Prop :=
  ∀ (ps : List (Addr × Byte)) (a : Addr),
    Memory.read (Memory.ofPairs ps) a.toNat = (ps.find? (fun p => p.1 == a)).map (·.2)

/-! ### Image model -/

/-- R116: a region is all of its bytes in address order, both ends included, or an error if one is missing. -/
def Obligations.RegionIsItsBytes : Prop :=
  ∀ (m : Memory) (s e : Addr), s ≤ e →
    (∀ out, region m s e = some out ↔
      out.length = e.toNat - s.toNat + 1 ∧ ∀ k, k < out.length → out[k]? = Memory.read m (s.toNat + k)) ∧
    (region m s e = none ↔ ∃ a, s.toNat ≤ a ∧ a ≤ e.toNat ∧ Memory.read m a = none)

/-- R120, with the `Load` it rests on (R117): `Load` gives exactly the three regions of the map, read from the image, and
fails exactly where a byte of one of them is missing; the sizes of the loaded regions; so `CheckCrc` on the loaded table goes
to its table WRITE and never raises InvalidCrcSize. -/
def Obligations.LoadedRegionsAndSizes : Prop :=
  ∀ (map : MemMap) (m : Memory),
    (∀ img, load map m = some img ↔
      region m map.appStart map.appEnd = some img.app ∧ region m map.crcStart map.crcEnd = some img.crct ∧
      region m map.nvmStart map.nvmEnd = some img.nvm) ∧
    (load map m = none ↔ ∃ a, Memory.read m a = none ∧
      ((map.appStart.toNat ≤ a ∧ a ≤ map.appEnd.toNat) ∨ (map.crcStart.toNat ≤ a ∧ a ≤ map.crcEnd.toNat) ∨
        (map.nvmStart.toNat ≤ a ∧ a ≤ map.nvmEnd.toNat))) ∧
    ∀ img, map.wf = true → load map m = some img →
    img.app.length = map.appEnd.toNat - map.appStart.toNat + 1 ∧
    img.crct.length = map.crcEnd.toNat - map.crcStart.toNat + 1 ∧ img.crct.length = 64 ∧
    img.nvm.length = map.nvmEnd.toNat - map.nvmStart.toNat + 1 ∧
    ∀ u s, (startCheckCrc img.crct u s).phase = .run (.call (.write s.cfg.map.crcStart img.crct) (.crcTable u))

/-- R121: the settings are a slice of the application region. -/
def Obligations.SettingsAreASlice : Prop :=
  ∀ (map : MemMap) (m : Memory) (img : Image), map.wf = true → load map m = some img →
    img.nvm = (img.app.drop (map.nvmStart.toNat - map.appStart.toNat)).take (map.nvmEnd.toNat + 1 - map.nvmStart.toNat)

/-- The chunks of the write pass are the application region cut into 64-byte pieces, the last one shorter where the length
is no multiple of 64 (44_orchestrator.md section 4). -/
def Obligations.ChunksPartitionTheApplication : Prop :=
  ∀ app : List Byte,
    ((List.range (blocks app.length)).map fun j => chunkAt app (64 * j)).flatten = app ∧
    (∀ j, j < blocks app.length → (chunkAt app (64 * j)).length = min 64 (app.length - 64 * j)) ∧
    (∀ j, j < blocks app.length → 0 < (chunkAt app (64 * j)).length)

/-- A counter value not past a region's end is the address it sends, and adding 64 does not wrap it (from R47). -/
def Obligations.CounterNeverWraps : Prop :=
  ∀ (A : BitVec 17) (e : Addr), A.toNat ≤ e.toNat →
    (counterAddr A).toNat = A.toNat ∧ (counterAddr A).toNat ≤ e.toNat ∧ (counterNext A).toNat = A.toNat + 64

/-! ### Outcomes and aborts -/

/-- R139, R140, with the codes of R138's and R83's tables: the fields of RESULT for every outcome, and the reserved bits. -/
def Obligations.OutcomeWordFields : Prop :=
  OpOutcome.ok.word = 0 ∧
  (∀ o : OpOutcome, o.word.extractLsb' 6 2 = 0) ∧
  (∀ e ∈ [(Err.invalidBlockSize, (0x1 : BitVec 4)), (.invalidCrcSize, 0x2), (.malformedImage, 0x7), (.illegalOp, 0x8)],
    resultCode e.1.word = e.2 ∧ e.1.word.extractLsb' 4 28 = 0) ∧
  (∀ a st, ∀ e ∈ [(Err.blockReadFailed a, (0x3 : BitVec 4), a), (.blockWriteFailed a, 0x4, a), (.crcCheckFailed, 0x5, 0)],
    resultCode (e.1 .timedOut).word = e.2.1 ∧ resultTO (e.1 .timedOut).word = true ∧
    resultSV (e.1 .timedOut).word = false ∧ resultInfo (e.1 .timedOut).word = 0 ∧
    resultAddr (e.1 .timedOut).word = e.2.2 ∧
    resultCode (e.1 (.status st)).word = e.2.1 ∧ resultTO (e.1 (.status st)).word = false ∧
    resultSV (e.1 (.status st)).word = true ∧ resultInfo (e.1 (.status st)).word = st ∧
    resultAddr (e.1 (.status st)).word = e.2.2) ∧
  (∀ a, resultCode (Err.verificationMismatch a).word = 0x6 ∧ resultTO (Err.verificationMismatch a).word = false ∧
    resultSV (Err.verificationMismatch a).word = false ∧ resultInfo (Err.verificationMismatch a).word = 0 ∧
    resultAddr (Err.verificationMismatch a).word = a) ∧
  (∀ e ∈ [(DecodeReason.noOpenFlag, (0x01 : Byte)), (.unterminated, 0x02), (.escapeFlag, 0x03), (.badEscape, 0x04),
      (.trailingBytes, 0x05), (.rawSpecial, 0x06)],
    resultCode (Err.decodeError e.1).word = 0x9 ∧ resultTO (Err.decodeError e.1).word = false ∧
    resultSV (Err.decodeError e.1).word = false ∧ resultInfo (Err.decodeError e.1).word = e.2 ∧
    resultAddr (Err.decodeError e.1).word = 0)

/-- A raised error ends the operation (from R126 and R141): where a take has returned and SEQ's statements after it raise an
error, the operation ends in that step, on the failure path of its owner: the two events of VERIFY and FLASH in order (none
for a primitive operation) after those already reported, nothing more sent, the session closed, completion with RESULT from
the error and RDATA = []. -/
def Obligations.RaisedErrorEndsOperation : Prop :=
  ∀ (s : State) (r : TakeResult) (k : Resume) (e : Err) (o : Owner) (ts : List Turn),
    s.cfg.wf = true → s.phase = .run (.ret r k) → s.turns = .seq :: ts →
    (resume r k { s with turns := ts }).phase = .run (.raise e o) →
    o = k.owner ∧ step s = .next { ended s ts e.word [] with
      plog := (resume r k { s with turns := ts }).plog ++ (match o with
        | .primitive => []
        | .verify => [.error e, .verifyFailed]
        | .flash => [.error e, .flashFailed]) }

/-- A timed-out take or a non-zero status ends the operation at every exchange, with the exchange's error: nothing more is
sent, no Dot is reported, the session is closed (42_block_primitives.md section 1, 60_exceptions.md section 2). -/
def Obligations.FailedExchangeAborts : Prop :=
  ∀ (s : State) (r : TakeResult) (k : Resume) (ts : List Turn) (why : Cause),
    s.cfg.wf = true → s.phase = .run (.ret r k) → s.turns = .seq :: ts →
    ((r = .timedOut ∧ why = .timedOut) ∨ (∃ st d, r = .ok (st :: d) ∧ st ≠ 0 ∧ why = .status st)) →
    step s = .next { ended s ts
        (match k with
          | .readBlock a => packCause 0x3 why a
          | .writeBlock a => packCause 0x4 why a
          | .crcTable _ => packCause 0x4 why s.cfg.map.crcStart
          | .crcStatus _ => packCause 0x5 why 0
          | .rangeRead _ A _ _ => packCause 0x3 why (A.extractLsb' 0 16)
          | .flashWrite A _ _ => packCause 0x4 why (A.extractLsb' 0 16)) [] with
      plog := s.plog ++ (match k.owner with
        | .primitive => []
        | .verify => [.error (k.error s.cfg why), .verifyFailed]
        | .flash => [.error (k.error s.cfg why), .flashFailed]) }

/-! ### Registers, reset, configuration -/

/-- The STATUS register's bits (from R21); in every state of the invariant BUSY and DONE are never both 1 and SESS = 1 implies BUSY = 1. -/
def Obligations.StatusRegister : Prop :=
  ∀ s : State,
    s.status.getLsbD 0 = s.busy ∧ s.status.getLsbD 1 = s.done ∧ s.status.getLsbD 2 = s.session.isSome ∧
    s.status.extractLsb' 3 5 = 0 ∧
    (s.Inv → ¬ (s.status.getLsbD 0 = true ∧ s.status.getLsbD 1 = true) ∧
      (s.status.getLsbD 2 = true → s.status.getLsbD 0 = true))

/-- R156: what reset leaves (the values the spec gives; the operand latches are left out, log 4). -/
def Obligations.ResetValues : Prop :=
  State.reset.status = 0 ∧ State.reset.result = 0 ∧ State.reset.rdata = [] ∧ State.reset.session = none ∧
  State.reset.phase = .idle ∧ State.reset.txlog = [] ∧ State.reset.plog = [] ∧ State.reset.fault = false

/-- A reset abandons whatever runs: the session is closed, every register has its reset value, FAULT is clear, no event and
no RESULT is produced (70_reset_and_hazards.md section 1; that a reset is a turn, and what it keeps of the model's own fields,
is log 5). -/
def Obligations.ResetTurnAbandons : Prop :=
  ∀ (s : State) (ts : List Turn), s.cfg.wf = true → s.turns = .reset :: ts →
    ∃ s', step s = .next s' ∧ s'.status = 0 ∧ s'.result = 0 ∧ s'.rdata = [] ∧ s'.session = none ∧ s'.phase = .idle ∧
      s'.txlog = [] ∧ s'.plog = [] ∧ s'.fault = false ∧ s'.cfg = s.cfg ∧ s'.turns = ts

/-- R20: no step writes the configuration or the map. -/
def Obligations.NoStepWritesConfiguration : Prop :=
  ∀ s s' : State, step s = .next s' → s'.cfg = s.cfg

/-- FAULT (from R33, R156 and D27): it is clear at reset, set only by an arrival into a full finite buffer, never set in a good
final state, and cleared by no step but a reset, which clears it (how R33's "never cleared" and R156's "clear" go together is
log 5). -/
def Obligations.FaultSetByOverflowClearedByReset : Prop :=
  State.reset.fault = false ∧ (∀ s : State, s.fault = true → ¬ s.GoodEnd) ∧
  ∀ s s' : State, step s = .next s' →
    (s.fault = true → (∀ ts, s.turns ≠ .reset :: ts) → s'.fault = true) ∧
    ((∃ ts, s.turns = .reset :: ts) → s'.fault = false) ∧
    (s.fault = false → s'.fault = true → ∃ b ts cap q, s.turns = .rx b :: ts ∧ s.cfg.rxCapacity = some cap ∧
      s.session = some q ∧ cap ≤ q.rxq.length)

/-- R10 with R45: a configuration that breaks any of the conditions is refused. -/
def Obligations.IllFormedConfigurationRefused : Prop :=
  ∀ s : State,
    (s.cfg.flag = s.cfg.esc ∨ s.cfg.flag ∉ s.cfg.escset ∨ s.cfg.esc ∉ s.cfg.escset ∨ s.cfg.xmask = 0 ∨
      (∃ b ∈ s.cfg.escset, b ^^^ s.cfg.xmask = s.cfg.flag ∨ b ^^^ s.cfg.xmask ∈ s.cfg.escset) ∨
      s.cfg.timeoutTicks = 0 ∨
      s.cfg.map.appEnd < s.cfg.map.appStart ∨ s.cfg.map.crcEnd < s.cfg.map.crcStart ∨
      s.cfg.map.nvmEnd < s.cfg.map.nvmStart ∨
      s.cfg.map.nvmStart < s.cfg.map.appStart ∨ s.cfg.map.appEnd < s.cfg.map.nvmEnd ∨
      ¬ (s.cfg.map.crcEnd < s.cfg.map.appStart ∨ s.cfg.map.appEnd < s.cfg.map.crcStart) ∨
      s.cfg.map.crcEnd.toNat + 1 ≠ s.cfg.map.crcStart.toNat + 64) →
    step s = .refused .illFormedConfig

/-- The default parameters are well-formed, and the default map's regions are whole numbers of blocks
(R46). -/
def Obligations.DefaultMapIsWellFormed : Prop :=
  Config.default.wf = true ∧
  Config.default.map.appEnd.toNat + 1 - Config.default.map.appStart.toNat = 15360 ∧ blocks 15360 = 240 ∧ 64 * 240 = 15360 ∧
  Config.default.map.crcEnd.toNat + 1 - Config.default.map.crcStart.toNat = 64 ∧
  Config.default.map.nvmEnd.toNat + 1 - Config.default.map.nvmStart.toNat = 512 ∧ blocks 512 = 8 ∧ 64 * 8 = 512

/-! ### Whole-machine rules -/

/-- A step runs the decoded instruction: the latched word at the start of an operation, the wire command at a `Send`, the
placed word after `withFetchWord`. The step adds only that SEQ's turn is taken off the agenda. -/
def Obligations.StepRunsDecodedInstruction : Prop :=
  ∀ s : State, s.cfg.wf = true →
    (∀ i ts, s.phase = .run .start → decode s.cfg.ragged (.host s.hostop) = .ok i → s.turns = .seq :: ts →
      step s = exec i { s with turns := ts }) ∧
    (∀ i, s.phase = .run .start → decode s.cfg.ragged (.host s.hostop) = .ok i → s.turns = [] → step s = exec i s) ∧
    (∀ c k ts, s.phase = .run (.call c k) → s.turns = .seq :: ts → step s = exec c.instr { s with turns := ts }) ∧
    (∀ c k, s.phase = .run (.call c k) → s.turns = [] → step s = exec c.instr s) ∧
    (∀ nbits w i, decodeTableWord nbits w = some i → s.turns = [] →
      step (s.withFetchWord nbits w) = exec i (s.withFetchWord nbits w))

/-- After a take returned, SEQ goes on in one step: its own statements, and then the meaning of the wire command they reach,
or the abort path of the error they raise, or nothing more where they complete the operation (from R29 and R92; that the step
ends with the wire command's entry poll is log 9). -/
def Obligations.SeqGoesOnAfterTake : Prop :=
  ∀ (s : State) (r : TakeResult) (k : Resume) (ts : List Turn),
    s.cfg.wf = true → s.phase = .run (.ret r k) → s.turns = .seq :: ts →
    (∀ c k', (resume r k { s with turns := ts }).phase = .run (.call c k') →
      step s = exec c.instr (resume r k { s with turns := ts })) ∧
    (∀ e o, (resume r k { s with turns := ts }).phase = .run (.raise e o) →
      step s = .next (abort e o (resume r k { s with turns := ts }))) ∧
    ((resume r k { s with turns := ts }).phase = .idle → step s = .next (resume r k { s with turns := ts }))

/-- A SEQ step ends at completion, having sent nothing, or in the take of the one command it sent: waiting, with no tick
elapsed, where the entry poll found too few bytes, or at `RUN(c)` with the bytes where the entry poll took them (from R29 and
R92, read together as log 9 says). It never rests before a `Send` or at a raised error. -/
def Obligations.SeqStepEndsInTakeOrIdle : Prop :=
  ∀ (s s' : State) (ts : List Turn), s.turns = .seq :: ts → step s = .next s' →
    (s'.phase = .idle ∧ s'.txlog = s.txlog) ∨
    ∃ w, s'.txlog = s.txlog ++ [w] ∧
      ((∃ n k, s'.phase = .wait n 0 k ∧ s'.rxq.length < n) ∨ ∃ r k, s'.phase = .run (.ret (.ok r) k))

/-- The frame of every instruction: configuration, operand latches, every image byte, FAULT and the agenda are unchanged, and
the two logs only grow. -/
def Obligations.InstructionFrame : Prop :=
  ∀ (i : Instr) (s s' : State), exec i s = .next s' →
    s'.cfg = s.cfg ∧ s'.hostop = s.hostop ∧ s'.hdata = s.hdata ∧ (∀ a, Memory.read s'.img a = Memory.read s.img a) ∧
    s'.fault = s.fault ∧ s'.turns = s.turns ∧ s.txlog <+: s'.txlog ∧ s.plog <+: s'.plog

/-- Only VERIFY and FLASH report: no codec operation, no primitive operation and no wire command sent for one adds an event,
and no step of another agent does (44_orchestrator.md section 1). -/
def Obligations.OnlyVerifyAndFlashReport : Prop :=
  (∀ (i : Instr) (s s' : State), exec i s = .next s' → (∀ a, i ≠ .verify a) → (∀ a, i ≠ .flash a) →
    (∀ c k, s.phase = .run (.call c k) → k.owner = .primitive) → s'.plog = s.plog) ∧
  (∀ (s s' : State) (r : TakeResult) (k : Resume) (ts : List Turn), s.turns = .seq :: ts → step s = .next s' →
    s.phase = .run (.ret r k) → k.owner = .primitive → s'.plog = s.plog) ∧
  (∀ (s s' : State) (t : Turn) (ts : List Turn), s.turns = t :: ts → t ≠ .seq → t ≠ .reset → step s = .next s' →
    s'.plog = s.plog)

/-- R72: every entry a step adds to TXLOG is the wire form of one of the three commands, well-formed under the padding
policy. -/
def Obligations.OnlyTheThreeCommandsAreSent : Prop :=
  ∀ s s' : State, step s = .next s' → (∀ ts, s.turns ≠ .reset :: ts) →
    ∃ new, s'.txlog = s.txlog ++ new ∧
      ∀ w ∈ new, ∃ i p, encode i = .wire p ∧ i.wf s.cfg.ragged = true ∧ w = wireForm s.cfg p

/-- While a response is outstanding no step sends (from R50). -/
def Obligations.NoSendWhileResponseOutstanding : Prop :=
  ∀ (s s' : State) (n t : Nat) (k : Resume), s.phase = .wait n t k → step s = .next s' → (∀ ts, s.turns ≠ .reset :: ts) →
    s'.txlog = s.txlog

/-- The state after reset meets the machine's invariant. -/
def Obligations.ResetMeetsInvariant : Prop := State.reset.Inv

/-- Every step of every agent keeps the machine's invariant. -/
def Obligations.StepKeepsInvariant : Prop :=
  ∀ s s' : State, s.Inv → step s = .next s' → s'.Inv

/-- A running operation completes (from R136). With nothing more from the host, the device or reset, SEQ and TIME alone bring
every running operation to completion within `T + 2` steps and one more for each byte buffered. The fairness of TIME is the
model's empty agenda (log 2), a successful entry poll ends a SEQ step (log 9), and the transport never fails (log 13). -/
def Obligations.RunningOperationCompletes : Prop :=
  ∀ s : State, s.Inv → s.cfg.wf = true → s.busy = true → s.turns = [] →
    ∃ m s', m ≤ s.cfg.timeoutTicks + s.rxq.length + 2 ∧ runSteps m s = .next s' ∧ s'.phase = .idle ∧ s'.busy = false ∧ s'.done = true ∧
      s'.session = none
end

