-- ==== Sys2Proof/Laws/FrameCodec.lean ====
section
/-! SUPPORT. The frame codec's small lemmas: the conditions of R10 as named facts, and the decoder one byte at a time. -/

namespace Sys2Proof.Machine

/-- The codec conditions of 00_scope.md R10 (a) to (d), one by one. -/
structure CodecConditions (cfg : Config) : Prop where
  flag_ne_esc : cfg.flag ≠ cfg.esc
  flag_mem : cfg.flag ∈ cfg.escset
  esc_mem : cfg.esc ∈ cfg.escset
  xmask_ne : cfg.xmask ≠ 0
  xor_ne_flag : ∀ b ∈ cfg.escset, b ^^^ cfg.xmask ≠ cfg.flag
  xor_not_mem : ∀ b ∈ cfg.escset, b ^^^ cfg.xmask ∉ cfg.escset

theorem codecConditions {cfg : Config} (h : cfg.codecWf = true) : CodecConditions cfg := by
  simp only [Config.codecWf, Bool.and_eq_true, decide_eq_true_eq, List.all_eq_true] at h
  obtain ⟨⟨⟨⟨a, b⟩, c⟩, d⟩, e⟩ := h
  exact ⟨a, b, c, d, fun x hx => (e x hx).1, fun x hx => (e x hx).2⟩

/-- The escape transform is its own inverse. -/
theorem xor_xor_cancel (b m : Byte) : b ^^^ m ^^^ m = b := by
  rw [BitVec.xor_assoc]; simp

theorem escByte_special {cfg : Config} {b : Byte} (h : b ∈ cfg.escset) : escByte cfg b = [cfg.esc, b ^^^ cfg.xmask] := by
  simp [escByte, h]

theorem escByte_plain {cfg : Config} {b : Byte} (h : b ∉ cfg.escset) : escByte cfg b = [b] := by
  simp [escByte, h]

theorem wireForm_dropFirst {cfg : Config} (h : cfg.dropFirst = true) (p : List Byte) :
    wireForm cfg p = p.flatMap (escByte cfg) ++ [cfg.flag] := by
  simp [wireForm, h, encodeFrame]

@[simp] theorem map_ok (g : List Byte → List Byte) (p : List Byte) :
    Except.map g (.ok p : Except DecodeReason (List Byte)) = .ok (g p) := rfl

@[simp] theorem map_error (g : List Byte → List Byte) (x : DecodeReason) :
    Except.map g (.error x : Except DecodeReason (List Byte)) = .error x := rfl

@[simp] theorem decodeBody_nil (cfg : Config) : decodeBody cfg [] = .error .unterminated := by
  rw [decodeBody]

/-- A closing delimiter. -/
theorem decodeBody_flag (cfg : Config) (rest : List Byte) :
    decodeBody cfg (cfg.flag :: rest) = if rest = [] then .ok [] else .error .trailingBytes := by
  unfold decodeBody; simp

theorem decodeBody_esc_nil {cfg : Config} (h : cfg.esc ≠ cfg.flag) :
    decodeBody cfg [cfg.esc] = .error .unterminated := by
  unfold decodeBody; simp [h]

/-- An escape pair. -/
theorem decodeBody_esc_cons {cfg : Config} (h : cfg.esc ≠ cfg.flag) (c : Byte) (rest : List Byte) :
    decodeBody cfg (cfg.esc :: c :: rest) =
      if c = cfg.flag then .error .escapeFlag
      else if c ^^^ cfg.xmask ∉ cfg.escset then .error .badEscape
      else (decodeBody cfg rest).map ((c ^^^ cfg.xmask) :: ·) := by
  rw [decodeBody]; simp [h]

/-- A byte that is neither delimiter nor escape. -/
theorem decodeBody_other {cfg : Config} {b : Byte} (hf : b ≠ cfg.flag) (he : b ≠ cfg.esc) (rest : List Byte) :
    decodeBody cfg (b :: rest) =
      if b ∈ cfg.escset then .error .rawSpecial
      else (decodeBody cfg rest).map (b :: ·) := by
  conv => lhs; unfold decodeBody
  simp [hf, he]

/-- The scan passes over an escaped payload and returns it in front of what the rest gives. -/
theorem decodeBody_escaped_append {cfg : Config} (h : CodecConditions cfg) (p r : List Byte) :
    decodeBody cfg (p.flatMap (escByte cfg) ++ r) = (decodeBody cfg r).map (p ++ ·) := by
  induction p with
  | nil => cases hr : decodeBody cfg r <;> simp [hr]
  | cons b p ih =>
    by_cases hb : b ∈ cfg.escset
    · simp only [List.flatMap_cons, escByte_special hb, List.cons_append, List.nil_append,
        decodeBody_esc_cons h.flag_ne_esc.symm, h.xor_ne_flag b hb, if_false, xor_xor_cancel, hb, not_true, ih]
      cases decodeBody cfg r <;> rfl
    · have hf : b ≠ cfg.flag := fun e => hb (e ▸ h.flag_mem)
      have he : b ≠ cfg.esc := fun e => hb (e ▸ h.esc_mem)
      simp only [List.flatMap_cons, escByte_plain hb, List.cons_append, List.nil_append, decodeBody_other hf he, hb,
        if_false, ih]
      cases decodeBody cfg r <;> rfl

/-- Where the scan can end: the bytes `r` that follow the longest escaped payload, one case for the success and one for each
way to fail (40_frame_codec.md R82). -/
inductive ScanEnd (cfg : Config) : List Byte → Except DecodeReason (List Byte) → Prop where
  | closed : ScanEnd cfg [cfg.flag] (.ok [])
  | empty : ScanEnd cfg [] (.error .unterminated)
  | loneEsc : ScanEnd cfg [cfg.esc] (.error .unterminated)
  | escapeFlag (xs : List Byte) : ScanEnd cfg (cfg.esc :: cfg.flag :: xs) (.error .escapeFlag)
  | badEscape (c : Byte) (xs : List Byte) (hc : c ≠ cfg.flag) (hm : c ^^^ cfg.xmask ∉ cfg.escset) :
    ScanEnd cfg (cfg.esc :: c :: xs) (.error .badEscape)
  | trailing (x : Byte) (xs : List Byte) : ScanEnd cfg (cfg.flag :: x :: xs) (.error .trailingBytes)
  | rawSpecial (b : Byte) (xs : List Byte) (hb : b ∈ cfg.escset) (hf : b ≠ cfg.flag) (he : b ≠ cfg.esc) :
    ScanEnd cfg (b :: xs) (.error .rawSpecial)

/-- What the scan answers where it ends. -/
theorem ScanEnd.decodeBody_eq {cfg : Config} (h : CodecConditions cfg) {r : List Byte}
    {v : Except DecodeReason (List Byte)} (hr : ScanEnd cfg r v) : decodeBody cfg r = v := by
  have hn := h.flag_ne_esc.symm
  cases hr with
  | closed => simp [decodeBody_flag]
  | empty => simp
  | loneEsc => exact decodeBody_esc_nil hn
  | escapeFlag xs => simp [decodeBody_esc_cons hn]
  | badEscape c xs hc hm => simp [decodeBody_esc_cons hn, hc, hm]
  | trailing x xs => simp [decodeBody_flag]
  | rawSpecial b xs hb hf he => simp [decodeBody_other hf he, hb]

/-- Every input of the scan is an escaped payload followed by an end of the scan. -/
theorem exists_scanEnd {cfg : Config} (h : CodecConditions cfg) (f : List Byte) :
    ∃ (p r : List Byte) (v : Except DecodeReason (List Byte)), f = p.flatMap (escByte cfg) ++ r ∧ ScanEnd cfg r v := by
  match f with
  | [] => exact ⟨[], [], _, rfl, .empty⟩
  | b :: rest =>
    by_cases hf : b = cfg.flag
    · subst hf
      cases rest with
      | nil => exact ⟨[], _, _, rfl, .closed⟩
      | cons x xs => exact ⟨[], _, _, rfl, .trailing x xs⟩
    by_cases he : b = cfg.esc
    · subst he
      match rest with
      | [] => exact ⟨[], _, _, rfl, .loneEsc⟩
      | c :: xs =>
        by_cases hc : c = cfg.flag
        · subst hc; exact ⟨[], _, _, rfl, .escapeFlag xs⟩
        by_cases hm : c ^^^ cfg.xmask ∈ cfg.escset
        · obtain ⟨p, r, v, rfl, hr⟩ := exists_scanEnd h xs
          exact ⟨(c ^^^ cfg.xmask) :: p, r, v, by rw [List.flatMap_cons, escByte_special hm, xor_xor_cancel]; rfl, hr⟩
        · exact ⟨[], _, _, rfl, .badEscape c xs hc hm⟩
    by_cases hb : b ∈ cfg.escset
    · exact ⟨[], _, _, rfl, .rawSpecial b rest hb hf he⟩
    · obtain ⟨p, r, v, rfl, hr⟩ := exists_scanEnd h rest
      exact ⟨b :: p, r, v, by simp [escByte_plain hb], hr⟩
termination_by f.length

/-- What the scan answers, said once: an escaped payload, an end of the scan, and the answer there. -/
theorem decodeBody_cases {cfg : Config} (h : CodecConditions cfg) (f : List Byte) :
    ∃ (p r : List Byte) (v : Except DecodeReason (List Byte)), f = p.flatMap (escByte cfg) ++ r ∧ ScanEnd cfg r v ∧
      decodeBody cfg f = v.map (p ++ ·) := by
  obtain ⟨p, r, v, rfl, hr⟩ := exists_scanEnd h f
  exact ⟨p, r, v, rfl, hr, by rw [decodeBody_escaped_append h, hr.decodeBody_eq h]⟩

end Sys2Proof.Machine
end

