-- ==== Sys2Proof/Laws/State.lean ====
section
/-! SUPPORT. One lemma per field per state update, true by rfl, so that no later proof unfolds a record update. -/

namespace Sys2Proof.Machine

/-! ### openSession -/

@[simp] theorem openSession_cfg (s : State) : (openSession s).cfg = s.cfg := rfl
@[simp] theorem openSession_hostop (s : State) : (openSession s).hostop = s.hostop := rfl
@[simp] theorem openSession_hdata (s : State) : (openSession s).hdata = s.hdata := rfl
@[simp] theorem openSession_img (s : State) : (openSession s).img = s.img := rfl
@[simp] theorem openSession_busy (s : State) : (openSession s).busy = s.busy := rfl
@[simp] theorem openSession_done (s : State) : (openSession s).done = s.done := rfl
@[simp] theorem openSession_result (s : State) : (openSession s).result = s.result := rfl
@[simp] theorem openSession_rdata (s : State) : (openSession s).rdata = s.rdata := rfl
@[simp] theorem openSession_session (s : State) : (openSession s).session = some { baud := Config.baud, rxq := [] } := rfl
@[simp] theorem openSession_phase (s : State) : (openSession s).phase = s.phase := rfl
@[simp] theorem openSession_txlog (s : State) : (openSession s).txlog = s.txlog := rfl
@[simp] theorem openSession_plog (s : State) : (openSession s).plog = s.plog := rfl
@[simp] theorem openSession_fault (s : State) : (openSession s).fault = s.fault := rfl
@[simp] theorem openSession_turns (s : State) : (openSession s).turns = s.turns := rfl

/-! ### closeSession -/

@[simp] theorem closeSession_cfg (s : State) : (closeSession s).cfg = s.cfg := rfl
@[simp] theorem closeSession_hostop (s : State) : (closeSession s).hostop = s.hostop := rfl
@[simp] theorem closeSession_hdata (s : State) : (closeSession s).hdata = s.hdata := rfl
@[simp] theorem closeSession_img (s : State) : (closeSession s).img = s.img := rfl
@[simp] theorem closeSession_busy (s : State) : (closeSession s).busy = s.busy := rfl
@[simp] theorem closeSession_done (s : State) : (closeSession s).done = s.done := rfl
@[simp] theorem closeSession_result (s : State) : (closeSession s).result = s.result := rfl
@[simp] theorem closeSession_rdata (s : State) : (closeSession s).rdata = s.rdata := rfl
@[simp] theorem closeSession_session (s : State) : (closeSession s).session = none := rfl
@[simp] theorem closeSession_phase (s : State) : (closeSession s).phase = s.phase := rfl
@[simp] theorem closeSession_txlog (s : State) : (closeSession s).txlog = s.txlog := rfl
@[simp] theorem closeSession_plog (s : State) : (closeSession s).plog = s.plog := rfl
@[simp] theorem closeSession_fault (s : State) : (closeSession s).fault = s.fault := rfl
@[simp] theorem closeSession_turns (s : State) : (closeSession s).turns = s.turns := rfl

/-! ### send -/

@[simp] theorem send_cfg (c : Cmd) (s : State) : (send c s).cfg = s.cfg := rfl
@[simp] theorem send_hostop (c : Cmd) (s : State) : (send c s).hostop = s.hostop := rfl
@[simp] theorem send_hdata (c : Cmd) (s : State) : (send c s).hdata = s.hdata := rfl
@[simp] theorem send_img (c : Cmd) (s : State) : (send c s).img = s.img := rfl
@[simp] theorem send_busy (c : Cmd) (s : State) : (send c s).busy = s.busy := rfl
@[simp] theorem send_done (c : Cmd) (s : State) : (send c s).done = s.done := rfl
@[simp] theorem send_result (c : Cmd) (s : State) : (send c s).result = s.result := rfl
@[simp] theorem send_rdata (c : Cmd) (s : State) : (send c s).rdata = s.rdata := rfl
@[simp] theorem send_session (c : Cmd) (s : State) : (send c s).session = s.session := rfl
@[simp] theorem send_phase (c : Cmd) (s : State) : (send c s).phase = s.phase := rfl
@[simp] theorem send_txlog (c : Cmd) (s : State) : (send c s).txlog = s.txlog ++ [wireForm s.cfg (cmdBytes s.cfg c)] := rfl
@[simp] theorem send_plog (c : Cmd) (s : State) : (send c s).plog = s.plog := rfl
@[simp] theorem send_fault (c : Cmd) (s : State) : (send c s).fault = s.fault := rfl
@[simp] theorem send_turns (c : Cmd) (s : State) : (send c s).turns = s.turns := rfl

/-! ### report -/

@[simp] theorem report_cfg (ev : Progress) (s : State) : (report ev s).cfg = s.cfg := rfl
@[simp] theorem report_hostop (ev : Progress) (s : State) : (report ev s).hostop = s.hostop := rfl
@[simp] theorem report_hdata (ev : Progress) (s : State) : (report ev s).hdata = s.hdata := rfl
@[simp] theorem report_img (ev : Progress) (s : State) : (report ev s).img = s.img := rfl
@[simp] theorem report_busy (ev : Progress) (s : State) : (report ev s).busy = s.busy := rfl
@[simp] theorem report_done (ev : Progress) (s : State) : (report ev s).done = s.done := rfl
@[simp] theorem report_result (ev : Progress) (s : State) : (report ev s).result = s.result := rfl
@[simp] theorem report_rdata (ev : Progress) (s : State) : (report ev s).rdata = s.rdata := rfl
@[simp] theorem report_session (ev : Progress) (s : State) : (report ev s).session = s.session := rfl
@[simp] theorem report_phase (ev : Progress) (s : State) : (report ev s).phase = s.phase := rfl
@[simp] theorem report_txlog (ev : Progress) (s : State) : (report ev s).txlog = s.txlog := rfl
@[simp] theorem report_plog (ev : Progress) (s : State) : (report ev s).plog = s.plog ++ [ev] := rfl
@[simp] theorem report_fault (ev : Progress) (s : State) : (report ev s).fault = s.fault := rfl
@[simp] theorem report_turns (ev : Progress) (s : State) : (report ev s).turns = s.turns := rfl

/-! ### complete -/

@[simp] theorem complete_cfg (o : OpOutcome) (out : List Byte) (s : State) : (complete o out s).cfg = s.cfg := rfl
@[simp] theorem complete_hostop (o : OpOutcome) (out : List Byte) (s : State) : (complete o out s).hostop = s.hostop := rfl
@[simp] theorem complete_hdata (o : OpOutcome) (out : List Byte) (s : State) : (complete o out s).hdata = s.hdata := rfl
@[simp] theorem complete_img (o : OpOutcome) (out : List Byte) (s : State) : (complete o out s).img = s.img := rfl
@[simp] theorem complete_busy (o : OpOutcome) (out : List Byte) (s : State) : (complete o out s).busy = false := rfl
@[simp] theorem complete_done (o : OpOutcome) (out : List Byte) (s : State) : (complete o out s).done = true := rfl
@[simp] theorem complete_result (o : OpOutcome) (out : List Byte) (s : State) : (complete o out s).result = o.word := rfl
@[simp] theorem complete_rdata (o : OpOutcome) (out : List Byte) (s : State) : (complete o out s).rdata = out := rfl
@[simp] theorem complete_session (o : OpOutcome) (out : List Byte) (s : State) : (complete o out s).session = s.session := rfl
@[simp] theorem complete_phase (o : OpOutcome) (out : List Byte) (s : State) : (complete o out s).phase = .idle := rfl
@[simp] theorem complete_txlog (o : OpOutcome) (out : List Byte) (s : State) : (complete o out s).txlog = s.txlog := rfl
@[simp] theorem complete_plog (o : OpOutcome) (out : List Byte) (s : State) : (complete o out s).plog = s.plog := rfl
@[simp] theorem complete_fault (o : OpOutcome) (out : List Byte) (s : State) : (complete o out s).fault = s.fault := rfl
@[simp] theorem complete_turns (o : OpOutcome) (out : List Byte) (s : State) : (complete o out s).turns = s.turns := rfl

/-! ### raise -/

@[simp] theorem raise_cfg (e : Err) (o : Owner) (s : State) : (raise e o s).cfg = s.cfg := rfl
@[simp] theorem raise_hostop (e : Err) (o : Owner) (s : State) : (raise e o s).hostop = s.hostop := rfl
@[simp] theorem raise_hdata (e : Err) (o : Owner) (s : State) : (raise e o s).hdata = s.hdata := rfl
@[simp] theorem raise_img (e : Err) (o : Owner) (s : State) : (raise e o s).img = s.img := rfl
@[simp] theorem raise_busy (e : Err) (o : Owner) (s : State) : (raise e o s).busy = s.busy := rfl
@[simp] theorem raise_done (e : Err) (o : Owner) (s : State) : (raise e o s).done = s.done := rfl
@[simp] theorem raise_result (e : Err) (o : Owner) (s : State) : (raise e o s).result = s.result := rfl
@[simp] theorem raise_rdata (e : Err) (o : Owner) (s : State) : (raise e o s).rdata = s.rdata := rfl
@[simp] theorem raise_session (e : Err) (o : Owner) (s : State) : (raise e o s).session = s.session := rfl
@[simp] theorem raise_phase (e : Err) (o : Owner) (s : State) : (raise e o s).phase = .run (.raise e o) := rfl
@[simp] theorem raise_txlog (e : Err) (o : Owner) (s : State) : (raise e o s).txlog = s.txlog := rfl
@[simp] theorem raise_plog (e : Err) (o : Owner) (s : State) : (raise e o s).plog = s.plog := rfl
@[simp] theorem raise_fault (e : Err) (o : Owner) (s : State) : (raise e o s).fault = s.fault := rfl
@[simp] theorem raise_turns (e : Err) (o : Owner) (s : State) : (raise e o s).turns = s.turns := rfl

/-! ### goTo -/

@[simp] theorem goTo_cfg (c : Cmd) (k : Resume) (s : State) : (goTo c k s).cfg = s.cfg := rfl
@[simp] theorem goTo_hostop (c : Cmd) (k : Resume) (s : State) : (goTo c k s).hostop = s.hostop := rfl
@[simp] theorem goTo_hdata (c : Cmd) (k : Resume) (s : State) : (goTo c k s).hdata = s.hdata := rfl
@[simp] theorem goTo_img (c : Cmd) (k : Resume) (s : State) : (goTo c k s).img = s.img := rfl
@[simp] theorem goTo_busy (c : Cmd) (k : Resume) (s : State) : (goTo c k s).busy = s.busy := rfl
@[simp] theorem goTo_done (c : Cmd) (k : Resume) (s : State) : (goTo c k s).done = s.done := rfl
@[simp] theorem goTo_result (c : Cmd) (k : Resume) (s : State) : (goTo c k s).result = s.result := rfl
@[simp] theorem goTo_rdata (c : Cmd) (k : Resume) (s : State) : (goTo c k s).rdata = s.rdata := rfl
@[simp] theorem goTo_session (c : Cmd) (k : Resume) (s : State) : (goTo c k s).session = s.session := rfl
@[simp] theorem goTo_phase (c : Cmd) (k : Resume) (s : State) : (goTo c k s).phase = .run (.call c k) := rfl
@[simp] theorem goTo_txlog (c : Cmd) (k : Resume) (s : State) : (goTo c k s).txlog = s.txlog := rfl
@[simp] theorem goTo_plog (c : Cmd) (k : Resume) (s : State) : (goTo c k s).plog = s.plog := rfl
@[simp] theorem goTo_fault (c : Cmd) (k : Resume) (s : State) : (goTo c k s).fault = s.fault := rfl
@[simp] theorem goTo_turns (c : Cmd) (k : Resume) (s : State) : (goTo c k s).turns = s.turns := rfl

/-! ### accept -/

@[simp] theorem accept_cfg (s : State) : (accept s).cfg = s.cfg := rfl
@[simp] theorem accept_hostop (s : State) : (accept s).hostop = s.hostop := rfl
@[simp] theorem accept_hdata (s : State) : (accept s).hdata = s.hdata := rfl
@[simp] theorem accept_img (s : State) : (accept s).img = s.img := rfl
@[simp] theorem accept_busy (s : State) : (accept s).busy = true := rfl
@[simp] theorem accept_done (s : State) : (accept s).done = false := rfl
@[simp] theorem accept_result (s : State) : (accept s).result = 0 := rfl
@[simp] theorem accept_rdata (s : State) : (accept s).rdata = [] := rfl
@[simp] theorem accept_session (s : State) : (accept s).session = s.session := rfl
@[simp] theorem accept_phase (s : State) : (accept s).phase = .run .start := rfl
@[simp] theorem accept_txlog (s : State) : (accept s).txlog = s.txlog := rfl
@[simp] theorem accept_plog (s : State) : (accept s).plog = s.plog := rfl
@[simp] theorem accept_fault (s : State) : (accept s).fault = s.fault := rfl
@[simp] theorem accept_turns (s : State) : (accept s).turns = s.turns := rfl

/-! ### setRxq -/

@[simp] theorem setRxq_cfg (q : List Byte) (s : State) : (s.setRxq q).cfg = s.cfg := by
  unfold State.setRxq; split <;> rfl
@[simp] theorem setRxq_hostop (q : List Byte) (s : State) : (s.setRxq q).hostop = s.hostop := by
  unfold State.setRxq; split <;> rfl
@[simp] theorem setRxq_hdata (q : List Byte) (s : State) : (s.setRxq q).hdata = s.hdata := by
  unfold State.setRxq; split <;> rfl
@[simp] theorem setRxq_img (q : List Byte) (s : State) : (s.setRxq q).img = s.img := by
  unfold State.setRxq; split <;> rfl
@[simp] theorem setRxq_busy (q : List Byte) (s : State) : (s.setRxq q).busy = s.busy := by
  unfold State.setRxq; split <;> rfl
@[simp] theorem setRxq_done (q : List Byte) (s : State) : (s.setRxq q).done = s.done := by
  unfold State.setRxq; split <;> rfl
@[simp] theorem setRxq_result (q : List Byte) (s : State) : (s.setRxq q).result = s.result := by
  unfold State.setRxq; split <;> rfl
@[simp] theorem setRxq_rdata (q : List Byte) (s : State) : (s.setRxq q).rdata = s.rdata := by
  unfold State.setRxq; split <;> rfl
@[simp] theorem setRxq_phase (q : List Byte) (s : State) : (s.setRxq q).phase = s.phase := by
  unfold State.setRxq; split <;> rfl
@[simp] theorem setRxq_txlog (q : List Byte) (s : State) : (s.setRxq q).txlog = s.txlog := by
  unfold State.setRxq; split <;> rfl
@[simp] theorem setRxq_plog (q : List Byte) (s : State) : (s.setRxq q).plog = s.plog := by
  unfold State.setRxq; split <;> rfl
@[simp] theorem setRxq_fault (q : List Byte) (s : State) : (s.setRxq q).fault = s.fault := by
  unfold State.setRxq; split <;> rfl
@[simp] theorem setRxq_turns (q : List Byte) (s : State) : (s.setRxq q).turns = s.turns := by
  unfold State.setRxq; split <;> rfl

theorem setRxq_session (q : List Byte) (s : State) :
    (s.setRxq q).session = s.session.map fun x => { x with rxq := q } := by
  unfold State.setRxq; split <;> simp_all

/-! ### reportFailure and abort -/

@[simp] theorem reportFailure_cfg (e : Err) (o : Owner) (s : State) : (reportFailure e o s).cfg = s.cfg := by
  cases o <;> rfl
@[simp] theorem reportFailure_hostop (e : Err) (o : Owner) (s : State) : (reportFailure e o s).hostop = s.hostop := by
  cases o <;> rfl
@[simp] theorem reportFailure_hdata (e : Err) (o : Owner) (s : State) : (reportFailure e o s).hdata = s.hdata := by
  cases o <;> rfl
@[simp] theorem reportFailure_img (e : Err) (o : Owner) (s : State) : (reportFailure e o s).img = s.img := by
  cases o <;> rfl
@[simp] theorem reportFailure_busy (e : Err) (o : Owner) (s : State) : (reportFailure e o s).busy = s.busy := by
  cases o <;> rfl
@[simp] theorem reportFailure_done (e : Err) (o : Owner) (s : State) : (reportFailure e o s).done = s.done := by
  cases o <;> rfl
@[simp] theorem reportFailure_result (e : Err) (o : Owner) (s : State) : (reportFailure e o s).result = s.result := by
  cases o <;> rfl
@[simp] theorem reportFailure_rdata (e : Err) (o : Owner) (s : State) : (reportFailure e o s).rdata = s.rdata := by
  cases o <;> rfl
@[simp] theorem reportFailure_session (e : Err) (o : Owner) (s : State) : (reportFailure e o s).session = s.session := by
  cases o <;> rfl
@[simp] theorem reportFailure_phase (e : Err) (o : Owner) (s : State) : (reportFailure e o s).phase = s.phase := by
  cases o <;> rfl
@[simp] theorem reportFailure_txlog (e : Err) (o : Owner) (s : State) : (reportFailure e o s).txlog = s.txlog := by
  cases o <;> rfl
@[simp] theorem reportFailure_fault (e : Err) (o : Owner) (s : State) : (reportFailure e o s).fault = s.fault := by
  cases o <;> rfl
@[simp] theorem reportFailure_turns (e : Err) (o : Owner) (s : State) : (reportFailure e o s).turns = s.turns := by
  cases o <;> rfl

/-- The events a failure reports (44_orchestrator.md R126). -/
def failureEvents (e : Err) : Owner → List Progress
  | .primitive => []
  | .verify => [.error e, .verifyFailed]
  | .flash => [.error e, .flashFailed]

@[simp] theorem reportFailure_plog (e : Err) (o : Owner) (s : State) :
    (reportFailure e o s).plog = s.plog ++ failureEvents e o := by
  cases o <;> simp [reportFailure, failureEvents]

/-- The abort path as one update. -/
theorem abort_eq (e : Err) (o : Owner) (s : State) :
    abort e o s = { s with result := e.word, rdata := [], busy := false, done := true, phase := .idle, session := none,
                           plog := s.plog ++ failureEvents e o } := by
  cases o <;> simp [abort, reportFailure, failureEvents, complete, closeSession, report, OpOutcome.word]

/-- Success inside a session as one update. -/
theorem finish_eq (out : List Byte) (s : State) :
    finish out s = { s with result := 0, rdata := out, busy := false, done := true, phase := .idle, session := none } := rfl

@[simp] theorem abort_cfg (e : Err) (o : Owner) (s : State) : (abort e o s).cfg = s.cfg := by
  rw [abort_eq]
@[simp] theorem abort_hostop (e : Err) (o : Owner) (s : State) : (abort e o s).hostop = s.hostop := by
  rw [abort_eq]
@[simp] theorem abort_hdata (e : Err) (o : Owner) (s : State) : (abort e o s).hdata = s.hdata := by
  rw [abort_eq]
@[simp] theorem abort_img (e : Err) (o : Owner) (s : State) : (abort e o s).img = s.img := by
  rw [abort_eq]
@[simp] theorem abort_busy (e : Err) (o : Owner) (s : State) : (abort e o s).busy = false := by
  rw [abort_eq]
@[simp] theorem abort_done (e : Err) (o : Owner) (s : State) : (abort e o s).done = true := by
  rw [abort_eq]
@[simp] theorem abort_result (e : Err) (o : Owner) (s : State) : (abort e o s).result = e.word := by
  rw [abort_eq]
@[simp] theorem abort_rdata (e : Err) (o : Owner) (s : State) : (abort e o s).rdata = [] := by
  rw [abort_eq]
@[simp] theorem abort_session (e : Err) (o : Owner) (s : State) : (abort e o s).session = none := by
  rw [abort_eq]
@[simp] theorem abort_phase (e : Err) (o : Owner) (s : State) : (abort e o s).phase = .idle := by
  rw [abort_eq]
@[simp] theorem abort_txlog (e : Err) (o : Owner) (s : State) : (abort e o s).txlog = s.txlog := by
  rw [abort_eq]
@[simp] theorem abort_plog (e : Err) (o : Owner) (s : State) : (abort e o s).plog = s.plog ++ failureEvents e o := by
  rw [abort_eq]
@[simp] theorem abort_fault (e : Err) (o : Owner) (s : State) : (abort e o s).fault = s.fault := by
  rw [abort_eq]
@[simp] theorem abort_turns (e : Err) (o : Owner) (s : State) : (abort e o s).turns = s.turns := by
  rw [abort_eq]

/-! ### finish -/

@[simp] theorem finish_cfg (out : List Byte) (s : State) : (finish out s).cfg = s.cfg := rfl
@[simp] theorem finish_hostop (out : List Byte) (s : State) : (finish out s).hostop = s.hostop := rfl
@[simp] theorem finish_hdata (out : List Byte) (s : State) : (finish out s).hdata = s.hdata := rfl
@[simp] theorem finish_img (out : List Byte) (s : State) : (finish out s).img = s.img := rfl
@[simp] theorem finish_busy (out : List Byte) (s : State) : (finish out s).busy = false := rfl
@[simp] theorem finish_done (out : List Byte) (s : State) : (finish out s).done = true := rfl
@[simp] theorem finish_result (out : List Byte) (s : State) : (finish out s).result = 0 := rfl
@[simp] theorem finish_rdata (out : List Byte) (s : State) : (finish out s).rdata = out := rfl
@[simp] theorem finish_session (out : List Byte) (s : State) : (finish out s).session = none := rfl
@[simp] theorem finish_phase (out : List Byte) (s : State) : (finish out s).phase = .idle := rfl
@[simp] theorem finish_txlog (out : List Byte) (s : State) : (finish out s).txlog = s.txlog := rfl
@[simp] theorem finish_plog (out : List Byte) (s : State) : (finish out s).plog = s.plog := rfl
@[simp] theorem finish_fault (out : List Byte) (s : State) : (finish out s).fault = s.fault := rfl
@[simp] theorem finish_turns (out : List Byte) (s : State) : (finish out s).turns = s.turns := rfl

/-! ### The buffer view -/

theorem rxq_of_session {s : State} {q : Session} (h : s.session = some q) : s.rxq = q.rxq := by
  simp [State.rxq, h]

theorem rxq_of_none {s : State} (h : s.session = none) : s.rxq = [] := by
  simp [State.rxq, h]

/-- `rxq` depends on the session alone. -/
theorem rxq_congr {s s' : State} (h : s'.session = s.session) : s'.rxq = s.rxq := by
  simp [State.rxq, h]

@[simp] theorem rxq_openSession (s : State) : (openSession s).rxq = [] := rfl

theorem rxq_setRxq {s : State} (q : List Byte) (h : s.session ≠ none) : (s.setRxq q).rxq = q := by
  cases hs : s.session with
  | none => exact absurd hs h
  | some x => simp [State.rxq, setRxq_session, hs]

end Sys2Proof.Machine
end

