-- ==== Sys2Proof/Laws/Ops.lean ====
section
/-! SUPPORT. What each shared operation can do, said once: take, exchange, the call of a wire command, and what follows a take. -/

namespace Sys2Proof.Machine

/-! ### Take -/

/-- A take that succeeds removes exactly the `n` oldest bytes (41_response_buffer.md R94). -/
theorem takeBytes_eq_some {n : Nat} {q r rest : List Byte} (h : takeBytes n q = some (r, rest)) :
    n ≤ q.length ∧ r = q.take n ∧ rest = q.drop n := by
  unfold takeBytes at h
  split at h
  · simp only [Option.some.injEq, Prod.mk.injEq] at h
    exact ⟨‹_›, h.1.symm, h.2.symm⟩
  · cases h

theorem takeBytes_of_le {n : Nat} {q : List Byte} (h : n ≤ q.length) : takeBytes n q = some (q.take n, q.drop n) := by
  simp [takeBytes, h]

theorem takeBytes_of_lt {n : Nat} {q : List Byte} (h : q.length < n) : takeBytes n q = none := by
  simp [takeBytes]; omega

theorem poll_enough {n t : Nat} {k : Resume} {s : State} (h : n ≤ s.rxq.length) :
    poll n t k s = { s.setRxq (s.rxq.drop n) with phase := .run (.ret (.ok (s.rxq.take n)) k) } := by
  simp [poll, takeBytes_of_le h]

theorem poll_timedOut {n t : Nat} {k : Resume} {s : State} (h : s.rxq.length < n) (ht : s.cfg.timeoutTicks ≤ t) :
    poll n t k s = { s with phase := .run (.ret .timedOut k) } := by
  simp [poll, takeBytes_of_lt h, ht]

theorem poll_wait {n t : Nat} {k : Resume} {s : State} (h : s.rxq.length < n) (ht : t < s.cfg.timeoutTicks) :
    poll n t k s = { s with phase := .wait n t k } := by
  simp [poll, takeBytes_of_lt h, Nat.not_le.mpr ht]

/-- The three outcomes of a poll, in the order of its tests (41_response_buffer.md R93). -/
theorem poll_cases (n t : Nat) (k : Resume) (s : State) :
    (n ≤ s.rxq.length ∧
      poll n t k s = { s.setRxq (s.rxq.drop n) with phase := .run (.ret (.ok (s.rxq.take n)) k) }) ∨
    (s.rxq.length < n ∧ s.cfg.timeoutTicks ≤ t ∧ poll n t k s = { s with phase := .run (.ret .timedOut k) }) ∨
    (s.rxq.length < n ∧ t < s.cfg.timeoutTicks ∧ poll n t k s = { s with phase := .wait n t k }) := by
  by_cases h : n ≤ s.rxq.length
  · exact .inl ⟨h, poll_enough h⟩
  · have h' : s.rxq.length < n := by omega
    by_cases ht : s.cfg.timeoutTicks ≤ t
    · exact .inr (.inl ⟨h', ht, poll_timedOut h' ht⟩)
    · exact .inr (.inr ⟨h', by omega, poll_wait h' (by omega)⟩)

@[simp] theorem poll_cfg (n t : Nat) (k : Resume) (s : State) : (poll n t k s).cfg = s.cfg := by
  obtain ⟨-, h⟩ | ⟨-, -, h⟩ | ⟨-, -, h⟩ := poll_cases n t k s <;> simp [h]
@[simp] theorem poll_hostop (n t : Nat) (k : Resume) (s : State) : (poll n t k s).hostop = s.hostop := by
  obtain ⟨-, h⟩ | ⟨-, -, h⟩ | ⟨-, -, h⟩ := poll_cases n t k s <;> simp [h]
@[simp] theorem poll_hdata (n t : Nat) (k : Resume) (s : State) : (poll n t k s).hdata = s.hdata := by
  obtain ⟨-, h⟩ | ⟨-, -, h⟩ | ⟨-, -, h⟩ := poll_cases n t k s <;> simp [h]
@[simp] theorem poll_img (n t : Nat) (k : Resume) (s : State) : (poll n t k s).img = s.img := by
  obtain ⟨-, h⟩ | ⟨-, -, h⟩ | ⟨-, -, h⟩ := poll_cases n t k s <;> simp [h]
@[simp] theorem poll_busy (n t : Nat) (k : Resume) (s : State) : (poll n t k s).busy = s.busy := by
  obtain ⟨-, h⟩ | ⟨-, -, h⟩ | ⟨-, -, h⟩ := poll_cases n t k s <;> simp [h]
@[simp] theorem poll_done (n t : Nat) (k : Resume) (s : State) : (poll n t k s).done = s.done := by
  obtain ⟨-, h⟩ | ⟨-, -, h⟩ | ⟨-, -, h⟩ := poll_cases n t k s <;> simp [h]
@[simp] theorem poll_result (n t : Nat) (k : Resume) (s : State) : (poll n t k s).result = s.result := by
  obtain ⟨-, h⟩ | ⟨-, -, h⟩ | ⟨-, -, h⟩ := poll_cases n t k s <;> simp [h]
@[simp] theorem poll_rdata (n t : Nat) (k : Resume) (s : State) : (poll n t k s).rdata = s.rdata := by
  obtain ⟨-, h⟩ | ⟨-, -, h⟩ | ⟨-, -, h⟩ := poll_cases n t k s <;> simp [h]
@[simp] theorem poll_txlog (n t : Nat) (k : Resume) (s : State) : (poll n t k s).txlog = s.txlog := by
  obtain ⟨-, h⟩ | ⟨-, -, h⟩ | ⟨-, -, h⟩ := poll_cases n t k s <;> simp [h]
@[simp] theorem poll_plog (n t : Nat) (k : Resume) (s : State) : (poll n t k s).plog = s.plog := by
  obtain ⟨-, h⟩ | ⟨-, -, h⟩ | ⟨-, -, h⟩ := poll_cases n t k s <;> simp [h]
@[simp] theorem poll_fault (n t : Nat) (k : Resume) (s : State) : (poll n t k s).fault = s.fault := by
  obtain ⟨-, h⟩ | ⟨-, -, h⟩ | ⟨-, -, h⟩ := poll_cases n t k s <;> simp [h]
@[simp] theorem poll_turns (n t : Nat) (k : Resume) (s : State) : (poll n t k s).turns = s.turns := by
  obtain ⟨-, h⟩ | ⟨-, -, h⟩ | ⟨-, -, h⟩ := poll_cases n t k s <;> simp [h]

/-- A poll neither opens nor closes the session. -/
@[simp] theorem poll_sess (n t : Nat) (k : Resume) (s : State) : (poll n t k s).sess = s.sess := by
  obtain ⟨-, h⟩ | ⟨-, -, h⟩ | ⟨-, -, h⟩ := poll_cases n t k s <;> simp [h, State.sess, setRxq_session]

/-! ### Calling a wire command -/

@[simp] theorem exchange_cfg (c : Cmd) (k : Resume) (s : State) : (exchange c k s).cfg = s.cfg := by
  simp [exchange]
@[simp] theorem exchange_hostop (c : Cmd) (k : Resume) (s : State) : (exchange c k s).hostop = s.hostop := by
  simp [exchange]
@[simp] theorem exchange_hdata (c : Cmd) (k : Resume) (s : State) : (exchange c k s).hdata = s.hdata := by
  simp [exchange]
@[simp] theorem exchange_img (c : Cmd) (k : Resume) (s : State) : (exchange c k s).img = s.img := by
  simp [exchange]
@[simp] theorem exchange_busy (c : Cmd) (k : Resume) (s : State) : (exchange c k s).busy = s.busy := by
  simp [exchange]
@[simp] theorem exchange_done (c : Cmd) (k : Resume) (s : State) : (exchange c k s).done = s.done := by
  simp [exchange]
@[simp] theorem exchange_result (c : Cmd) (k : Resume) (s : State) : (exchange c k s).result = s.result := by
  simp [exchange]
@[simp] theorem exchange_rdata (c : Cmd) (k : Resume) (s : State) : (exchange c k s).rdata = s.rdata := by
  simp [exchange]
@[simp] theorem exchange_plog (c : Cmd) (k : Resume) (s : State) : (exchange c k s).plog = s.plog := by
  simp [exchange]
@[simp] theorem exchange_fault (c : Cmd) (k : Resume) (s : State) : (exchange c k s).fault = s.fault := by
  simp [exchange]
@[simp] theorem exchange_turns (c : Cmd) (k : Resume) (s : State) : (exchange c k s).turns = s.turns := by
  simp [exchange]

@[simp] theorem exchange_txlog (c : Cmd) (k : Resume) (s : State) :
    (exchange c k s).txlog = s.txlog ++ [wireForm s.cfg (cmdBytes s.cfg c)] := by
  simp [exchange]

/-- The size test refuses a WRITE of more than 64 bytes before any send; every other call is its exchange
(42_block_primitives.md R108, R111). -/
theorem callCmd_cases (c : Cmd) (k : Resume) (s : State) :
    (∃ a d, c = .write a d ∧ Config.block < d.length ∧ callCmd c k s = raise .invalidBlockSize k.owner s) ∨
    ((∀ a d, c = .write a d → d.length ≤ Config.block) ∧ callCmd c k s = exchange c k s) := by
  cases c with
  | read a => exact .inr ⟨by simp, rfl⟩
  | crc => exact .inr ⟨by simp, rfl⟩
  | write a d =>
    by_cases h : Config.block < d.length
    · exact .inl ⟨a, d, rfl, h, by simp [callCmd, h]⟩
    · exact .inr ⟨by rintro _ _ ⟨⟩; omega, by simp [callCmd, h]⟩

/-- Every response has at least its status byte (30_encoding.md R64, R65). -/
theorem respLen_pos (c : Cmd) : 1 ≤ respLen c := by
  cases c <;> simp [respLen, Config.readResp, Config.crcResp, Config.writeResp]

/-! ### After a take -/

/-- The response check (42_block_primitives.md R105). -/
theorem check_cases (mk : Cause → Err) (r : TakeResult) :
    (r = .timedOut ∧ check mk r = .error (mk .timedOut)) ∨
    (∃ bytes, r = .ok bytes ∧ statusByte bytes = Config.statusOk ∧ check mk r = .ok bytes) ∨
    (∃ bytes, r = .ok bytes ∧ statusByte bytes ≠ Config.statusOk ∧
      check mk r = .error (mk (.status (statusByte bytes)))) := by
  cases r with
  | timedOut => exact .inl ⟨rfl, rfl⟩
  | ok bytes =>
    by_cases h : statusByte bytes = Config.statusOk
    · exact .inr (.inl ⟨bytes, rfl, h, by simp [check, h]⟩)
    · exact .inr (.inr ⟨bytes, rfl, h, by simp [check, h]⟩)

/-- Where SEQ is after the pure statements that follow a take: only events were reported since `s`, and SEQ stands at the
next command of the same operation, at an error, or has completed. -/
inductive Next (o : Owner) (s s' : State) : Prop where
  | goTo (evs : List Progress) (hev : o = .primitive → evs = []) (c : Cmd) (k : Resume) (ho : k.owner = o)
      (he : k.expects = respLen c) (h : s' = goTo c k { s with plog := s.plog ++ evs })
  | raise (evs : List Progress) (hev : o = .primitive → evs = []) (e : Err)
      (h : s' = raise e o { s with plog := s.plog ++ evs })
  | finish (evs : List Progress) (hev : o = .primitive → evs = []) (out : List Byte)
      (h : s' = finish out { s with plog := s.plog ++ evs })

theorem Next.of_report {o : Owner} {ev : Progress} {s s' : State} (ho : o ≠ .primitive) (h : Next o (report ev s) s') :
    Next o s s' := by
  cases h with
  | goTo evs hev c k hk he h => exact .goTo ([ev] ++ evs) (fun h => absurd h ho) c k hk he (by simpa [report] using h)
  | raise evs hev e h => exact .raise ([ev] ++ evs) (fun h => absurd h ho) e (by simpa [report] using h)
  | finish evs hev out h => exact .finish ([ev] ++ evs) (fun h => absurd h ho) out (by simpa [report] using h)

theorem next_goTo {o : Owner} (c : Cmd) (k : Resume) (s : State) (ho : k.owner = o) (he : k.expects = respLen c) :
    Next o s (goTo c k s) := .goTo [] (fun _ => rfl) c k ho he (by simp)

theorem next_raise (o : Owner) (e : Err) (s : State) : Next o s (raise e o s) := .raise [] (fun _ => rfl) e (by simp)

theorem next_finish (o : Owner) (out : List Byte) (s : State) : Next o s (finish out s) :=
  .finish [] (fun _ => rfl) out (by simp)

theorem Pass.owner_ne (p : Pass) : p.owner ≠ .primitive := by cases p <;> decide

theorem rangeRead_owner (p : Pass) (A : BitVec 17) (v : List Byte) (img : Image) :
    (Resume.rangeRead p A v img).owner = p.owner := by cases p <;> rfl

theorem startCheckCrc_next (t : List Byte) (u : CrcUser) (s : State) :
    Next (Resume.crcTable u).owner s (startCheckCrc t u s) := by
  unfold startCheckCrc
  split
  · exact next_goTo _ _ _ rfl rfl
  · exact next_raise _ _ _

theorem comparePass_next (p : Pass) (v : List Byte) (img : Image) (s : State) : Next p.owner s (comparePass p v img s) := by
  unfold comparePass
  split
  · exact next_raise _ _ _
  · exact Next.of_report p.owner_ne (next_finish _ _ _)

theorem readLoop_next (p : Pass) (A : BitVec 17) (v : List Byte) (img : Image) (s : State) :
    Next p.owner s (readLoop p A v img s) := by
  unfold readLoop
  split
  · exact next_goTo _ _ _ (rangeRead_owner p A v img) rfl
  · exact comparePass_next p v img s

theorem startVerifyRange_next (p : Pass) (img : Image) (s : State) : Next p.owner s (startVerifyRange p img s) :=
  Next.of_report p.owner_ne (readLoop_next _ _ _ _ _)

theorem writeLoop_next (A : BitVec 17) (K : Nat) (img : Image) (s : State) : Next .flash s (writeLoop A K img s) := by
  unfold writeLoop
  split
  · exact next_goTo _ _ _ rfl rfl
  · exact Next.of_report (by decide) (startCheckCrc_next img.crct (.flash img) _)

theorem proceed_next (k : Resume) (r : List Byte) (s : State) : Next k.owner s (proceed k r s) := by
  cases k with
  | readBlock a => exact next_finish _ _ _
  | writeBlock a => exact next_finish _ _ _
  | crcTable u => cases u <;> exact next_goTo _ _ _ rfl rfl
  | crcStatus u =>
    cases u with
    | checkCrc => exact next_finish _ _ _
    | flash img => exact startVerifyRange_next .settings img s
  | rangeRead p A v img =>
    rw [rangeRead_owner]
    exact Next.of_report p.owner_ne (readLoop_next _ _ _ _ _)
  | flashWrite A K img => exact Next.of_report (o := .flash) nofun (writeLoop_next _ _ _ _)

/-- What SEQ does when a take returns. -/
theorem resume_next (r : TakeResult) (k : Resume) (s : State) : Next k.owner s (resume r k s) := by
  unfold resume
  split
  · exact next_raise _ _ _
  · exact proceed_next _ _ _

end Sys2Proof.Machine
end

