-- ==== Sys2Proof/Laws/Sequencer.lean ====
section
/-! SUPPORT. The parts of a SEQ step: what each does at its position, what the whole keeps, and where it rests. -/

namespace Sys2Proof.Machine

/-- SEQ rests: it is idle, stands at the start of an operation, waits in a take, or its take has returned. -/
def Phase.rests : Phase → Bool
  | .idle => true
  | .run .start => true
  | .run (.call _ _) => false
  | .run (.ret _ _) => true
  | .run (.raise _ _) => false
  | .wait _ _ _ => true

theorem seqResume_ret {r : TakeResult} {k : Resume} {s : State} (h : s.phase = .run (.ret r k)) :
    seqResume s = resume r k s := by
  simp [seqResume, h]

theorem seqResume_raise {e : Err} {o : Owner} {s : State} (h : s.phase = .run (.raise e o)) : seqResume s = s := by
  simp [seqResume, h]

theorem seqSend_call {c : Cmd} {k : Resume} {s : State} (h : s.phase = .run (.call c k)) : seqSend s = callCmd c k s := by
  simp [seqSend, h]

theorem seqSend_raise {e : Err} {o : Owner} {s : State} (h : s.phase = .run (.raise e o)) : seqSend s = s := by
  simp [seqSend, h]

theorem seqSend_of_rests {s : State} (h : s.phase.rests = true) : seqSend s = s := by
  unfold seqSend
  split <;> simp_all [Phase.rests]

theorem seqAbort_raise {e : Err} {o : Owner} {s : State} (h : s.phase = .run (.raise e o)) : seqAbort s = abort e o s := by
  simp [seqAbort, h]

theorem seqAbort_of_rests {s : State} (h : s.phase.rests = true) : seqAbort s = s := by
  unfold seqAbort
  split <;> simp_all [Phase.rests]

/-- Where a wire command leaves SEQ: the size test raised an error and nothing was sent, or the command was sent and its take
rests. -/
theorem callCmd_rests (c : Cmd) (k : Resume) (s : State) :
    (∃ a d, c = .write a d ∧ Config.block < d.length ∧ callCmd c k s = raise .invalidBlockSize k.owner s) ∨
    (callCmd c k s = exchange c k s ∧ (callCmd c k s).phase.rests = true) := by
  obtain h | ⟨-, h⟩ := callCmd_cases c k s
  · exact .inl h
  · refine .inr ⟨h, ?_⟩
    rw [h, exchange]
    obtain ⟨-, h⟩ | ⟨-, -, h⟩ | ⟨-, -, h⟩ := poll_cases (respLen c) 0 k (send c s) <;> rw [h] <;> rfl

/-- Where SEQ rests, the SEQ step is over. -/
theorem seqFinish_of_rests {s : State} (h : s.phase.rests = true) : seqFinish s = s := by
  rw [seqFinish, seqSend_of_rests h, seqAbort_of_rests h]

/-- The SEQ step from a raised error is the abort path. -/
theorem seqFinish_raise {e : Err} {o : Owner} {s : State} (h : s.phase = .run (.raise e o)) : seqFinish s = abort e o s := by
  rw [seqFinish, seqSend_raise h, seqAbort_raise h]

/-- The SEQ step from a `Send`. -/
theorem seqFinish_call {c : Cmd} {k : Resume} {s : State} (h : s.phase = .run (.call c k)) :
    seqFinish s = seqFinish (callCmd c k s) := by
  have hs : seqSend (callCmd c k s) = callCmd c k s := by
    obtain ⟨-, -, -, -, he⟩ | ⟨-, hr⟩ := callCmd_rests c k s
    · exact seqSend_raise (by rw [he]; rfl)
    · exact seqSend_of_rests hr
  rw [seqFinish, seqFinish, seqSend_call h, hs]

/-- What a wire command and the abort path keep, the rest of a SEQ step keeps. -/
theorem seqFinish_keeps (P : State → Prop)
    (hcall : ∀ c k s, s.phase = .run (.call c k) → P s → P (callCmd c k s))
    (hraise : ∀ e o s, s.phase = .run (.raise e o) → P s → P (abort e o s)) (s : State) (h : P s) : P (seqFinish s) := by
  have hs : P (seqSend s) := by
    unfold seqSend
    split
    · next c k hp => exact hcall c k s hp h
    all_goals exact h
  unfold seqFinish seqAbort
  split
  · next e o hp => exact hraise e o _ hp hs
  all_goals exact hs

/-- The SEQ step always comes to rest (10_state.md R29). -/
theorem seqFinish_rests (s : State) : (seqFinish s).phase.rests = true := by
  cases hr : s.phase.rests with
  | true => rw [seqFinish_of_rests hr, hr]
  | false =>
    cases hp : s.phase with
    | idle => simp [hp, Phase.rests] at hr
    | wait n t k => simp [hp, Phase.rests] at hr
    | run p =>
      cases p with
      | start => simp [hp, Phase.rests] at hr
      | ret r k => simp [hp, Phase.rests] at hr
      | raise e o => rw [seqFinish_raise hp]; simp [Phase.rests]
      | call c k =>
        rw [seqFinish_call hp]
        obtain ⟨-, -, -, -, he⟩ | ⟨-, hr⟩ := callCmd_rests c k s
        · rw [he, seqFinish_raise rfl]; simp [Phase.rests]
        · rw [seqFinish_of_rests hr, hr]

end Sys2Proof.Machine
end

