-- ==== Sys2Proof/Laws/Frames.lean ====
section
/-! SUPPORT. What a SEQ step leaves alone: configuration, operand latches, FAULT and the agenda; and the logs only grow. -/

namespace Sys2Proof.Machine

@[simp] theorem callCmd_cfg (c : Cmd) (k : Resume) (s : State) : (callCmd c k s).cfg = s.cfg := by
  obtain ⟨a, d, -, -, h⟩ | ⟨-, h⟩ := callCmd_cases c k s <;> simp [h]

@[simp] theorem resume_cfg (r : TakeResult) (k : Resume) (s : State) : (resume r k s).cfg = s.cfg := by
  cases resume_next r k s <;> simp_all

@[simp] theorem seqFinish_cfg (s : State) : (seqFinish s).cfg = s.cfg :=
  seqFinish_keeps (fun s' => s'.cfg = s.cfg) (fun c k s' _ h => by simp [h]) (fun e o s' _ h => by simp [h]) s rfl

@[simp] theorem callCmd_hostop (c : Cmd) (k : Resume) (s : State) : (callCmd c k s).hostop = s.hostop := by
  obtain ⟨a, d, -, -, h⟩ | ⟨-, h⟩ := callCmd_cases c k s <;> simp [h]

@[simp] theorem resume_hostop (r : TakeResult) (k : Resume) (s : State) : (resume r k s).hostop = s.hostop := by
  cases resume_next r k s <;> simp_all

@[simp] theorem seqFinish_hostop (s : State) : (seqFinish s).hostop = s.hostop :=
  seqFinish_keeps (fun s' => s'.hostop = s.hostop) (fun c k s' _ h => by simp [h]) (fun e o s' _ h => by simp [h]) s rfl

@[simp] theorem callCmd_hdata (c : Cmd) (k : Resume) (s : State) : (callCmd c k s).hdata = s.hdata := by
  obtain ⟨a, d, -, -, h⟩ | ⟨-, h⟩ := callCmd_cases c k s <;> simp [h]

@[simp] theorem resume_hdata (r : TakeResult) (k : Resume) (s : State) : (resume r k s).hdata = s.hdata := by
  cases resume_next r k s <;> simp_all

@[simp] theorem seqFinish_hdata (s : State) : (seqFinish s).hdata = s.hdata :=
  seqFinish_keeps (fun s' => s'.hdata = s.hdata) (fun c k s' _ h => by simp [h]) (fun e o s' _ h => by simp [h]) s rfl

@[simp] theorem callCmd_img (c : Cmd) (k : Resume) (s : State) : (callCmd c k s).img = s.img := by
  obtain ⟨a, d, -, -, h⟩ | ⟨-, h⟩ := callCmd_cases c k s <;> simp [h]

@[simp] theorem resume_img (r : TakeResult) (k : Resume) (s : State) : (resume r k s).img = s.img := by
  cases resume_next r k s <;> simp_all

@[simp] theorem seqFinish_img (s : State) : (seqFinish s).img = s.img :=
  seqFinish_keeps (fun s' => s'.img = s.img) (fun c k s' _ h => by simp [h]) (fun e o s' _ h => by simp [h]) s rfl

@[simp] theorem callCmd_fault (c : Cmd) (k : Resume) (s : State) : (callCmd c k s).fault = s.fault := by
  obtain ⟨a, d, -, -, h⟩ | ⟨-, h⟩ := callCmd_cases c k s <;> simp [h]

@[simp] theorem resume_fault (r : TakeResult) (k : Resume) (s : State) : (resume r k s).fault = s.fault := by
  cases resume_next r k s <;> simp_all

@[simp] theorem seqFinish_fault (s : State) : (seqFinish s).fault = s.fault :=
  seqFinish_keeps (fun s' => s'.fault = s.fault) (fun c k s' _ h => by simp [h]) (fun e o s' _ h => by simp [h]) s rfl

@[simp] theorem callCmd_turns (c : Cmd) (k : Resume) (s : State) : (callCmd c k s).turns = s.turns := by
  obtain ⟨a, d, -, -, h⟩ | ⟨-, h⟩ := callCmd_cases c k s <;> simp [h]

@[simp] theorem resume_turns (r : TakeResult) (k : Resume) (s : State) : (resume r k s).turns = s.turns := by
  cases resume_next r k s <;> simp_all

@[simp] theorem seqFinish_turns (s : State) : (seqFinish s).turns = s.turns :=
  seqFinish_keeps (fun s' => s'.turns = s.turns) (fun c k s' _ h => by simp [h]) (fun e o s' _ h => by simp [h]) s rfl

theorem callCmd_txlog (c : Cmd) (k : Resume) (s : State) : s.txlog <+: (callCmd c k s).txlog := by
  obtain ⟨a, d, -, -, h⟩ | ⟨-, h⟩ := callCmd_cases c k s <;> simp [h]

@[simp] theorem callCmd_plog (c : Cmd) (k : Resume) (s : State) : (callCmd c k s).plog = s.plog := by
  obtain ⟨a, d, -, -, h⟩ | ⟨-, h⟩ := callCmd_cases c k s <;> simp [h]

@[simp] theorem resume_txlog (r : TakeResult) (k : Resume) (s : State) : (resume r k s).txlog = s.txlog := by
  cases resume_next r k s <;> simp_all

theorem resume_plog (r : TakeResult) (k : Resume) (s : State) : s.plog <+: (resume r k s).plog := by
  cases resume_next r k s <;> simp_all

/-- A SEQ step only appends to TXLOG. -/
theorem seqFinish_txlog (s : State) : s.txlog <+: (seqFinish s).txlog :=
  seqFinish_keeps (fun s' => s.txlog <+: s'.txlog) (fun c k s' _ h => h.trans (callCmd_txlog c k s'))
    (fun e o s' _ h => by simpa using h) s (List.prefix_refl _)

/-- A SEQ step only appends to PLOG. -/
theorem seqFinish_plog (s : State) : s.plog <+: (seqFinish s).plog :=
  seqFinish_keeps (fun s' => s.plog <+: s'.plog) (fun c k s' _ h => by simpa using h)
    (fun e o s' _ h => by simpa using h.trans (List.prefix_append _ _)) s (List.prefix_refl _)

end Sys2Proof.Machine
end

