-- ==== Sys2Proof/Laws/Memory.lean ====
section
/-! SUPPORT. The image map: every operation keeps the canonical form, and what a read after a write gives. -/

namespace Sys2Proof.Machine

theorem wfFrom_mono {m : Memory} {lo lo' : Nat} (hle : lo ≤ lo') (h : Memory.wfFrom lo' m = true) :
    Memory.wfFrom lo m = true := by
  cases m with
  | nil => rfl
  | cons c m =>
    simp only [Memory.wfFrom, Bool.and_eq_true, decide_eq_true_eq] at h ⊢
    exact ⟨⟨by omega, h.1.2⟩, h.2⟩

/-- Below a canonical map's first address nothing is listed. -/
theorem read_below {m : Memory} {lo a : Nat} (h : Memory.wfFrom lo m = true) (ha : a < lo) : Memory.read m a = none := by
  induction m generalizing lo with
  | nil => rfl
  | cons c m ih =>
    simp only [Memory.wfFrom, Bool.and_eq_true, decide_eq_true_eq] at h
    have hne : a ≠ c.1 := by omega
    simp only [Memory.read, if_neg hne]
    exact ih h.2 (by omega)

theorem write_wfFrom {m : Memory} {lo a : Nat} {v : Byte} (h : Memory.wfFrom lo m = true) (hlo : lo ≤ a) (ha : a < 65536) :
    Memory.wfFrom lo (Memory.write m a v) = true := by
  induction m generalizing lo with
  | nil => simp [Memory.write, Memory.wfFrom, hlo, ha]
  | cons c m ih =>
    obtain ⟨b, w⟩ := c
    simp only [Memory.wfFrom, Bool.and_eq_true, decide_eq_true_eq] at h
    unfold Memory.write
    split
    · simp only [Memory.wfFrom, Bool.and_eq_true, decide_eq_true_eq]
      exact ⟨⟨hlo, ha⟩, ⟨by omega, h.1.2⟩, h.2⟩
    · split
      · next hab => subst hab; simp only [Memory.wfFrom, Bool.and_eq_true, decide_eq_true_eq]; exact ⟨⟨hlo, ha⟩, h.2⟩
      · simp only [Memory.wfFrom, Bool.and_eq_true, decide_eq_true_eq]
        exact ⟨h.1, ih h.2 (by omega)⟩

/-- A write keeps the canonical form. -/
theorem write_wf {m : Memory} {a : Nat} {v : Byte} (h : m.wf = true) (ha : a < 65536) : (Memory.write m a v).wf = true :=
  write_wfFrom h (Nat.zero_le a) ha

/-- The map latched at an issue is in canonical form. -/
theorem ofPairs_wf (ps : List (Addr × Byte)) : (Memory.ofPairs ps).wf = true := by
  induction ps with
  | nil => rfl
  | cons p ps ih => exact write_wf ih p.1.isLt

/-- The map at reset is in canonical form. -/
theorem reset_img_wf : State.reset.img.wf = true := rfl

/-- A read after a write to the same address gives the value written. -/
theorem read_write_same (m : Memory) (a : Nat) (v : Byte) : Memory.read (Memory.write m a v) a = some v := by
  induction m with
  | nil => simp [Memory.write, Memory.read]
  | cons c m ih =>
    obtain ⟨b, w⟩ := c
    unfold Memory.write
    split
    · simp [Memory.read]
    · split
      · simp [Memory.read]
      · next hne => simp [Memory.read, hne, ih]

/-- A write leaves every other address alone. -/
theorem read_write_other {m : Memory} {a a' : Nat} {v : Byte} (hne : a' ≠ a) :
    Memory.read (Memory.write m a v) a' = Memory.read m a' := by
  induction m with
  | nil => simp [Memory.write, Memory.read, hne]
  | cons c m ih =>
    obtain ⟨b, w⟩ := c
    unfold Memory.write
    split
    · simp [Memory.read, hne]
    · split
      · next hab => subst hab; simp [Memory.read, hne]
      · simp [Memory.read, ih]

end Sys2Proof.Machine
end

