-- ==== Sys2Proof/Laws/PerInstr.lean ====
section
/-! SUPPORT. A law per instruction: the encoding of every instruction carries the fixed bits of its row of
spec/opcode_table.json (30_encoding.md R59 to R61, R69, R70). -/

namespace Sys2Proof.Laws.TableBits

/-- A code's bits as the table numbers them: the word, or the first four bytes of a wire command, byte 0 most significant;
the two bytes of a shorter one. -/
def bits : Code → BitVec 32
  | .host w => w
  | .wire (b0 :: b1 :: b2 :: b3 :: _) => b0 ++ b1 ++ b2 ++ b3
  | .wire (b0 :: b1 :: _) => (0 : BitVec 16) ++ b0 ++ b1
  | .wire _ => 0

/-- The row's mask. -/
def mask : Instr → BitVec 32
  | .read _ => 0xFFFF0000
  | .crc => 0x0000FFFF
  | .write _ _ => 0xFFFF0000
  | .encode _ => 0x0000FFFF
  | .decode _ => 0x0000FFFF
  | .readBlock _ => 0x0000FFFF
  | .writeBlock _ => 0x0000FFFF
  | .checkCrc _ => 0x0000FFFF
  | .verify _ => 0x0000FFFF
  | .flash _ => 0x0000FFFF

/-- The row's fixed bits. -/
def fixed : Instr → BitVec 32
  | .read _ => 0x01040000
  | .crc => 0x00000302
  | .write _ _ => 0x04440000
  | .encode _ => 0x00000001
  | .decode _ => 0x00000002
  | .readBlock _ => 0x00000003
  | .writeBlock _ => 0x00000004
  | .checkCrc _ => 0x00000005
  | .verify _ => 0x00000006
  | .flash _ => 0x00000007

/-- The encoding has the row's fixed bits. -/
def Statement (i : Instr) : Prop := bits (encode i) &&& mask i = fixed i

/-- The two fixed bytes of a READ or a WRITE, whatever the address bytes are. -/
theorem upper_half (x : BitVec 16) (hi lo : Byte) :
    (x ++ hi ++ lo : BitVec 32) &&& 0xFFFF0000 = x ++ (0 : BitVec 16) := by
  apply BitVec.eq_of_getLsbD_eq
  intro j hj
  simp only [BitVec.getLsbD_and, BitVec.getLsbD_append]
  interval_cases j <;> simp

/-- The fixed half of a HOSTOP word, whatever ADDR is. -/
theorem lower_half (addr : Addr) (op : BitVec 4) :
    hostWord addr op &&& 0x0000FFFF = (0 : BitVec 16) ++ (0 : BitVec 12) ++ op := by
  apply BitVec.eq_of_getLsbD_eq
  intro j hj
  simp only [hostWord, BitVec.getLsbD_and, BitVec.getLsbD_append]
  interval_cases j <;> simp

theorem read (a : Addr) : Statement (.read a) := upper_half 0x0104 (addrHi a) (addrLo a)
theorem crc : Statement .crc := by unfold Statement; decide
theorem write (a : Addr) (d : List Byte) : Statement (.write a d) := upper_half 0x0444 (addrHi a) (addrLo a)
theorem encode (addr : Addr) : Statement (.encode addr) := lower_half addr 0x1
theorem decode (addr : Addr) : Statement (.decode addr) := lower_half addr 0x2
theorem readBlock (addr : Addr) : Statement (.readBlock addr) := lower_half addr 0x3
theorem writeBlock (addr : Addr) : Statement (.writeBlock addr) := lower_half addr 0x4
theorem checkCrc (addr : Addr) : Statement (.checkCrc addr) := lower_half addr 0x5
theorem verify (addr : Addr) : Statement (.verify addr) := lower_half addr 0x6
theorem flash (addr : Addr) : Statement (.flash addr) := lower_half addr 0x7

end Sys2Proof.Laws.TableBits
end

