-- ==== Sys2Proof/Laws/Step.lean ====
section
/-! SUPPORT. What one step can do, said once. -/

namespace Sys2Proof.Machine

/-- The rest of a command that SEQ does from its `Send` on never stops. -/
theorem exec_read_of_call {a : Addr} {c : Cmd} {k : Resume} {s : State} (h : s.phase = .run (.call c k)) :
    exec (.read a) s = .next (seqFinish (callCmd (.read a) k s)) := by
  simp [exec, execRead, h]

theorem exec_crc_of_call {c : Cmd} {k : Resume} {s : State} (h : s.phase = .run (.call c k)) :
    exec .crc s = .next (seqFinish (callCmd .crc k s)) := by
  simp [exec, execCrc, h]

theorem exec_write_of_call {a : Addr} {d : List Byte} {c : Cmd} {k : Resume} {s : State}
    (h : s.phase = .run (.call c k)) : exec (.write a d) s = .next (seqFinish (callCmd (.write a d) k s)) := by
  simp [exec, execWrite, h]

/-- The command at which SEQ stands: its meaning is the SEQ step from there. -/
theorem exec_of_call {c : Cmd} {k : Resume} {s : State} (h : s.phase = .run (.call c k)) :
    exec c.instr s = .next (seqFinish s) := by
  rw [seqFinish_call h]
  cases c with
  | read a => exact exec_read_of_call h
  | crc => exact exec_crc_of_call h
  | write a d => exact exec_write_of_call h

/-- Where SEQ stands after an operation's own statements, before the first command runs: the shapes of a SEQ step at
`RUN(start)`. -/
inductive Started (s s' : State) : Prop where
  /-- The operation completed without a session. -/
  | completed (o : OpOutcome) (out : List Byte) (h : s' = complete o out s)
  /-- The operation was aborted before a session. -/
  | aborted (e : Err) (o : Owner) (h : s' = abort e o s)
  /-- SEQ went on inside a fresh session. -/
  | ran (s₀ : State) (o : Owner) (evs : List Progress)
      (hn : Next o { openSession s with plog := s.plog ++ evs } s₀) (h : s' = seqFinish s₀)

theorem Started.opened {o : Owner} {s s₀ : State} (h : Next o (openSession s) s₀) : Started s (seqFinish s₀) := by
  have he : { openSession s with plog := s.plog ++ [] } = openSession s := by simp [openSession]
  exact .ran s₀ o [] (he ▸ h) rfl

/-- What the first SEQ step of a host operation can do. -/
theorem exec_started {i : Instr} {s s' : State} (h : exec i s = .next s') :
    Started s s' ∨ ∃ c k, s.phase = .run (.call c k) ∧ ∃ c', i = c'.instr ∧ s' = seqFinish (callCmd c' k s) := by
  cases i with
  | read a =>
    simp only [exec, execRead] at h
    split at h
    · next c k hp => cases h; exact .inr ⟨c, k, hp, .read a, rfl, rfl⟩
    · cases h
  | crc =>
    simp only [exec, execCrc] at h
    split at h
    · next c k hp => cases h; exact .inr ⟨c, k, hp, .crc, rfl, rfl⟩
    · cases h
  | write a d =>
    simp only [exec, execWrite] at h
    split at h
    · next c k hp => cases h; exact .inr ⟨c, k, hp, .write a d, rfl, rfl⟩
    · cases h
  | encode a => cases h; exact .inl (.completed _ _ rfl)
  | decode a =>
    simp only [exec, execDecode] at h
    split at h <;> cases h
    · exact .inl (.completed _ _ rfl)
    · exact .inl (.aborted _ _ rfl)
  | readBlock a =>
    cases h
    exact .inl (.opened (next_goTo (.read a) (.readBlock a) (openSession s) rfl rfl))
  | writeBlock a =>
    simp only [exec, execWriteBlock] at h
    split at h <;> cases h
    · exact .inl (.aborted _ _ rfl)
    · exact .inl (.opened (next_goTo (.write a s.hdata) (.writeBlock a) (openSession s) rfl rfl))
  | checkCrc a =>
    simp only [exec, execCheckCrc] at h
    split at h <;> cases h
    · exact .inl (.aborted _ _ rfl)
    · exact .inl (.opened (startCheckCrc_next s.hdata .checkCrc (openSession s)))
  | verify a =>
    simp only [exec, execVerify] at h
    split at h <;> cases h
    · exact .inl (.aborted _ _ rfl)
    · next img _ =>
      exact .inl (.opened (startVerifyRange_next .application img (openSession s)))
  | flash a =>
    simp only [exec, execFlash] at h
    split at h <;> cases h
    · exact .inl (.aborted _ _ rfl)
    · next img _ => exact .inl (.ran _ .flash [.byteCount img.app.length] (writeLoop_next _ _ _ _) rfl)

/-- The turn a step takes, and the state it takes it in. -/
theorem step_turn (s : State) (hwf : s.cfg.wf = true) :
    (s.turns = [] ∧ step s = takeTurn (defaultTurn s) s) ∨
    ∃ t ts, s.turns = t :: ts ∧ step s = takeTurn t { s with turns := ts } := by
  unfold step
  rw [if_pos hwf]
  cases h : s.turns with
  | nil => exact .inl ⟨rfl, rfl⟩
  | cons t ts => exact .inr ⟨t, ts, rfl, rfl⟩

theorem step_cons {s : State} {t : Turn} {ts : List Turn} (hwf : s.cfg.wf = true) (h : s.turns = t :: ts) :
    step s = takeTurn t { s with turns := ts } := by
  simp [step, hwf, h]

theorem step_nil {s : State} (hwf : s.cfg.wf = true) (h : s.turns = []) : step s = takeTurn (defaultTurn s) s := by
  simp [step, hwf, h]

/-- A step that answers a next state had a well-formed configuration. -/
theorem step_wf {s s' : State} (h : step s = .next s') : s.cfg.wf = true := by
  unfold step at h
  split at h
  · assumption
  · cases h

/-- What SEQ's turn can do. -/
theorem seqTurn_cases {s s' : State} (h : seqTurn s = .next s') :
    (s.phase = .run .start ∧ (Started s s' ∨ s' = abort .illegalOp .primitive s)) ∨
    ((∃ c k, s.phase = .run (.call c k)) ∧ s' = seqFinish s) ∨
    (∃ r k, s.phase = .run (.ret r k) ∧ s' = seqFinish (resume r k s)) ∨
    ((∃ e o, s.phase = .run (.raise e o)) ∧ s' = seqFinish s) := by
  unfold seqTurn fetch at h
  cases hp : s.phase with
  | idle => simp [hp] at h
  | wait n t k => simp [hp] at h
  | run p =>
    cases p with
    | start =>
      left
      refine ⟨rfl, ?_⟩
      simp only [hp] at h
      split at h
      · next i hd =>
        obtain hs | ⟨c, k, hc, -⟩ := exec_started h
        · exact .inl hs
        · simp [hp] at hc
      · cases h; exact .inr rfl
      · next hd => simp at hd
    | call c k =>
      simp only [hp, exec_of_call hp] at h
      cases h
      exact .inr (.inl ⟨⟨c, k, rfl⟩, rfl⟩)
    | ret r k =>
      simp only [hp, seqResume_ret hp] at h
      cases h
      exact .inr (.inr (.inl ⟨r, k, rfl, rfl⟩))
    | raise e o =>
      simp only [hp, seqResume_raise hp] at h
      cases h
      exact .inr (.inr (.inr ⟨⟨e, o, rfl⟩, rfl⟩))

/-- What HOST's turn can do. -/
theorem hostIssue_cases {w : BitVec 32} {d : List Byte} {m : List (Addr × Byte)} {s s' : State}
    (h : hostIssue w d m s = .next s') :
    s.busy = false ∧ d.length ≤ s.cfg.hdataMax ∧
      s' = accept { s with hostop := w, hdata := d, img := Memory.ofPairs m } := by
  unfold hostIssue at h
  split at h
  · cases h
  · split at h
    · cases h
    · cases h
      exact ⟨by simpa using ‹¬s.busy = true›, by omega, rfl⟩

/-- What RXA's turn can do. -/
theorem rxAppend_cases (b : Byte) (s : State) :
    (s.session = none ∧ rxAppend b s = s) ∨
    (∃ q cap, s.session = some q ∧ s.cfg.rxCapacity = some cap ∧ cap ≤ q.rxq.length ∧
      rxAppend b s = { s with fault := true }) ∨
    (∃ q, s.session = some q ∧ (∀ cap, s.cfg.rxCapacity = some cap → q.rxq.length < cap) ∧
      rxAppend b s = { s with session := some { q with rxq := q.rxq ++ [b] } }) := by
  unfold rxAppend
  cases hs : s.session with
  | none => exact .inl ⟨rfl, rfl⟩
  | some q =>
    cases hc : s.cfg.rxCapacity with
    | none => exact .inr (.inr ⟨q, rfl, by simp, by simp [State.setRxq, hs]⟩)
    | some cap =>
      by_cases hle : cap ≤ q.rxq.length
      · exact .inr (.inl ⟨q, cap, rfl, rfl, hle, by simp [hle]⟩)
      · exact .inr (.inr ⟨q, rfl, by simp; omega, by simp [hle, State.setRxq, hs]⟩)

end Sys2Proof.Machine
end

