-- ==== Sys2Proof/Laws/WellFormed.lean ====
section
/-! SUPPORT. What a well-formed configuration gives (00_scope.md R10, 20_memory.md R45), the counter `A` (R47), and what a
region and a load are (43_image_model.md R116, R117). -/

namespace Sys2Proof.Machine

theorem timeoutTicks_pos {c : Config} (h : c.wf = true) : 1 ≤ c.timeoutTicks := by
  simp [Config.wf] at h
  omega

theorem map_wf {c : Config} (h : c.wf = true) : c.map.wf = true := by
  simp [Config.wf] at h
  exact h.1.2

/-- The conditions of R45 as inequalities of numbers. -/
theorem map_bounds {m : MemMap} (h : m.wf = true) :
    m.appStart.toNat ≤ m.appEnd.toNat ∧ m.crcStart.toNat ≤ m.crcEnd.toNat ∧ m.nvmStart.toNat ≤ m.nvmEnd.toNat ∧
    m.appStart.toNat ≤ m.nvmStart.toNat ∧ m.nvmEnd.toNat ≤ m.appEnd.toNat ∧ m.crcEnd.toNat + 1 = m.crcStart.toNat + 64 := by
  simp [MemMap.wf, MemMap.ordered, MemMap.nvmInside, MemMap.crcOneBlock, Config.block, BitVec.le_def] at h
  obtain ⟨⟨⟨h1, h2⟩, h3⟩, h4⟩ := h
  omega

/-! ### The counter -/

theorem counterAt_toNat (a : Addr) : (counterAt a).toNat = a.toNat := by
  have := a.isLt
  simp [counterAt]
  omega

theorem counterAddr_counterAt (a : Addr) : counterAddr (counterAt a) = a := by
  have := a.isLt
  apply BitVec.eq_of_toNat_eq
  simp [counterAddr, counterAt]
  omega

/-- A counter `n` bytes after `a` sends the address `a + n`. -/
theorem counterAddr_eq_addrAt {A : BitVec 17} {a : Addr} {n : Nat} (h : A.toNat = a.toNat + n) :
    counterAddr A = addrAt a n := by
  apply BitVec.eq_of_toNat_eq
  simp [counterAddr, addrAt, BitVec.toNat_add, h]

theorem counterNext_toNat {A : BitVec 17} (h : A.toNat < 65536) : (counterNext A).toNat = A.toNat + 64 := by
  simp [counterNext, BitVec.toNat_add]
  omega

/-! ### Regions -/

theorem readRun_eq_some (m : Memory) (a n : Nat) (out : List Byte) :
    readRun m a n = some out ↔ out.length = n ∧ ∀ k, k < out.length → out[k]? = Memory.read m (a + k) := by
  induction n generalizing a out with
  | zero => simp [readRun]; rintro rfl; simp
  | succ n ih =>
    simp only [readRun]
    constructor
    · intro h
      split at h
      · cases h
      · next b hb =>
        split at h
        · cases h
        · next bs hbs =>
          cases h
          obtain ⟨hl, hk⟩ := (ih _ _).mp hbs
          refine ⟨by simp [hl], fun k hk' => ?_⟩
          cases k with
          | zero => simp [hb]
          | succ k => simp at hk' ⊢; rw [hk k hk']; congr 1; omega
    · rintro ⟨hl, hk⟩
      cases out with
      | nil => simp at hl
      | cons b bs =>
        have h0 := hk 0 (by simp)
        simp at h0
        have := (ih (a + 1) bs).mpr ⟨by simpa using hl, fun k hk' => by
          have := hk (k + 1) (by simpa using hk'); simp at this; rw [this]; congr 1; omega⟩
        simp [← h0, this]

theorem readRun_eq_none (m : Memory) (a n : Nat) : readRun m a n = none ↔ ∃ k, k < n ∧ Memory.read m (a + k) = none := by
  induction n generalizing a with
  | zero => simp [readRun]
  | succ n ih =>
    simp only [readRun]
    constructor
    · intro h
      split at h
      · next h0 => exact ⟨0, by omega, h0⟩
      · split at h
        · next h1 => obtain ⟨k, hk, hr⟩ := (ih _).mp h1; exact ⟨k + 1, by omega, by rw [← hr]; congr 1; omega⟩
        · cases h
    · rintro ⟨k, hk, hr⟩
      cases k with
      | zero => simp at hr; simp [hr]
      | succ k =>
        have := (ih (a + 1)).mpr ⟨k, by omega, by rw [← hr]; congr 1; omega⟩
        split
        · rfl
        · rw [this]

/-- A load that succeeds is its three regions. -/
theorem load_eq_some {map : MemMap} {m : Memory} {img : Image} (h : load map m = some img) :
    region m map.appStart map.appEnd = some img.app ∧ region m map.crcStart map.crcEnd = some img.crct ∧
    region m map.nvmStart map.nvmEnd = some img.nvm := by
  simp only [load] at h
  split at h
  · cases h
  · split at h
    · cases h
    · split at h
      · cases h
      · cases h; exact ⟨‹_›, ‹_›, ‹_›⟩

end Sys2Proof.Machine
end

