-- ==== Sys2Proof/Laws/Run.lean ====
section
/-! SUPPORT. Runs of several steps: SEQ's turn at each position, the device's bytes arriving, and a take that is answered or
times out. -/

namespace Sys2Proof.Machine

/-! ### SEQ's turn at each position -/

theorem seqTurn_start {s : State} {i : Instr} (hp : s.phase = .run .start)
    (hd : decode s.cfg.ragged (.host s.hostop) = .ok i) : seqTurn s = exec i s := by
  simp [seqTurn, fetch, hp, hd]

theorem seqTurn_call {s : State} {c : Cmd} {k : Resume} (hp : s.phase = .run (.call c k)) : seqTurn s = exec c.instr s := by
  simp [seqTurn, fetch, hp]

theorem seqTurn_ret {s : State} {r : TakeResult} {k : Resume} (hp : s.phase = .run (.ret r k)) :
    seqTurn s = .next (seqFinish (resume r k s)) := by
  simp [seqTurn, fetch, hp, seqResume_ret hp]

theorem seqTurn_raise {s : State} {e : Err} {o : Owner} (hp : s.phase = .run (.raise e o)) :
    seqTurn s = .next (abort e o s) := by
  simp [seqTurn, fetch, hp, seqResume_raise hp, seqFinish_raise hp]

theorem seqFinish_wait {s : State} {n t : Nat} {k : Resume} (h : s.phase = .wait n t k) : seqFinish s = s :=
  seqFinish_of_rests (by simp [h, Phase.rests])

theorem seqFinish_ret {s : State} {r : TakeResult} {k : Resume} (h : s.phase = .run (.ret r k)) : seqFinish s = s :=
  seqFinish_of_rests (by simp [h, Phase.rests])

theorem seqFinish_idle {s : State} (h : s.phase = .idle) : seqFinish s = s :=
  seqFinish_of_rests (by simp [h, Phase.rests])

/-- A command whose response is not there yet: SEQ sends it and waits. -/
theorem seqFinish_call_wait {c : Cmd} {k : Resume} {s : State} {q : Session} (hp : s.phase = .run (.call c k))
    (hs : s.session = some q) (hT : 1 ≤ s.cfg.timeoutTicks) (hl : q.rxq.length < respLen c)
    (hc : ∀ a d, c = .write a d → d.length ≤ 64) :
    seqFinish s = { s with
      txlog := s.txlog ++ [wireForm s.cfg (cmdBytes s.cfg c)], phase := .wait (respLen c) 0 k } := by
  rw [seqFinish_call hp]
  obtain ⟨a, d, rfl, hd, -⟩ | ⟨-, he⟩ := callCmd_cases c k s
  · have := hc a d rfl; simp [Config.block] at hd; omega
  · have hr : (send c s).rxq = q.rxq := rxq_of_session hs
    rw [he, exchange, poll_wait (hr ▸ hl) (show 0 < (send c s).cfg.timeoutTicks from hT)]
    exact seqFinish_wait rfl

/-! ### Runs -/

@[simp] theorem runSteps_zero (s : State) : runSteps 0 s = .next s := rfl

theorem runSteps_succ {s s' : State} (h : step s = .next s') (n : Nat) : runSteps (n + 1) s = runSteps n s' := by
  have : core.step s = .next s' := h
  simp only [runSteps, Host.Core.run, this]
  rfl

/-- A run goes on from where its first part ended. -/
theorem runSteps_add {m : Nat} {s s' : State} (h : runSteps m s = .next s') (n : Nat) :
    runSteps (m + n) s = runSteps n s' := by
  induction m generalizing s with
  | zero => cases h; simp
  | succ m ih =>
    cases hs : step s with
    | next s₁ =>
      rw [runSteps_succ hs] at h
      rw [show m + 1 + n = (m + n) + 1 by omega, runSteps_succ hs, ih h]
    | fault r =>
      have : core.step s = .fault r := hs
      simp [runSteps, Host.Core.run, this] at h
    | refused r =>
      have : core.step s = .refused r := hs
      simp [runSteps, Host.Core.run, this] at h

/-- The bytes of a device's answer arrive one by one. -/
theorem runSteps_rx (s : State) (q : Session) (bs : List Byte) (ts : List Turn) (hwf : s.cfg.wf = true)
    (hc : s.cfg.rxCapacity = none) (hs : s.session = some q) (ht : s.turns = bs.map .rx ++ ts) :
    runSteps bs.length s = .next { s with turns := ts, session := some { q with rxq := q.rxq ++ bs } } := by
  induction bs generalizing s q with
  | nil => simp at ht; simp [← ht, ← hs]
  | cons b bs ih =>
    have h1 : step s = .next { s with
        turns := bs.map .rx ++ ts, session := some { q with rxq := q.rxq ++ [b] } } := by
      rw [step_cons hwf (by simpa using ht)]
      simp [takeTurn, rxAppend, hs, hc, State.setRxq]
    rw [List.length_cons, runSteps_succ h1]
    refine (ih _ { q with rxq := q.rxq ++ [b] } ?_ ?_ rfl rfl).trans ?_
    · exact hwf
    · exact hc
    simp

theorem step_seq_ret (s : State) (r : TakeResult) (k : Resume) (ts : List Turn) (hwf : s.cfg.wf = true)
    (hp : s.phase = .run (.ret r k)) (ht : s.turns = .seq :: ts) :
    step s = .next (seqFinish (resume r k { s with turns := ts })) := by
  rw [step_cons hwf ht]
  exact seqTurn_ret (s := { s with turns := ts }) hp

theorem timeTick_wait {s : State} {n t : Nat} {k : Resume} (h : s.phase = .wait n t k) :
    timeTick s = poll n (t + 1) k s := by
  unfold timeTick
  rw [h]

/-- A tick at which a waiting take finds enough bytes. -/
theorem step_tick_ok (s : State) (q : Session) (n t : Nat) (k : Resume) (ts : List Turn) (hwf : s.cfg.wf = true)
    (hp : s.phase = .wait n t k) (hs : s.session = some q) (hn : n ≤ q.rxq.length) (ht : s.turns = .tick :: ts) :
    step s = .next { s with
      turns := ts, session := some { q with rxq := q.rxq.drop n }, phase := .run (.ret (.ok (q.rxq.take n)) k) } := by
  rw [step_cons hwf ht]
  have hr : State.rxq { s with turns := ts } = q.rxq := rxq_of_session hs
  show Host.Outcome.next (timeTick { s with turns := ts }) = _
  rw [timeTick_wait (n := n) (t := t) (k := k) (by exact hp)]
  rw [poll_enough (hr ▸ hn), hr]
  simp [State.setRxq, hs]

/-- A tick at which a waiting take times out. -/
theorem step_tick_timedOut (s : State) (q : Session) (n t : Nat) (k : Resume) (ts : List Turn) (hwf : s.cfg.wf = true)
    (hp : s.phase = .wait n t k) (hs : s.session = some q) (hn : q.rxq.length < n) (hT : s.cfg.timeoutTicks ≤ t + 1)
    (ht : s.turns = .tick :: ts) : step s = .next { s with turns := ts, phase := .run (.ret .timedOut k) } := by
  rw [step_cons hwf ht]
  have hr : State.rxq { s with turns := ts } = q.rxq := rxq_of_session hs
  show Host.Outcome.next (timeTick { s with turns := ts }) = _
  rw [timeTick_wait (n := n) (t := t) (k := k) (by exact hp)]
  rw [poll_timedOut (hr ▸ hn) (by exact hT)]

/-- A tick at which a take goes on waiting. -/
theorem step_tick_wait (s : State) (q : Session) (n t : Nat) (k : Resume) (ts : List Turn) (hwf : s.cfg.wf = true)
    (hp : s.phase = .wait n t k) (hs : s.session = some q) (hn : q.rxq.length < n) (hT : t + 1 < s.cfg.timeoutTicks)
    (ht : s.turns = .tick :: ts) : step s = .next { s with turns := ts, phase := .wait n (t + 1) k } := by
  rw [step_cons hwf ht]
  have hr : State.rxq { s with turns := ts } = q.rxq := rxq_of_session hs
  show Host.Outcome.next (timeTick { s with turns := ts }) = _
  rw [timeTick_wait (n := n) (t := t) (k := k) (by exact hp)]
  rw [poll_wait (hr ▸ hn) (by exact hT)]

/-- An exchange whose whole response arrives in the take that waits for it. -/
theorem runSteps_answered (s : State) (q : Session) (bs : List Byte) (t : Nat) (k : Resume) (ts : List Turn)
    (hwf : s.cfg.wf = true) (hc : s.cfg.rxCapacity = none) (hp : s.phase = .wait bs.length t k)
    (hs : s.session = some q) (hq : q.rxq = []) (ht : s.turns = bs.map .rx ++ .tick :: .seq :: ts) :
    runSteps (bs.length + 2) s =
      .next (seqFinish (resume (.ok bs) k { s with turns := ts, phase := .run (.ret (.ok bs) k) })) := by
  rw [runSteps_add (runSteps_rx s q bs _ hwf hc hs ht)]
  rw [runSteps_succ (step_tick_ok _ { q with rxq := q.rxq ++ bs } bs.length t k _ (by exact hwf) (by exact hp) rfl
    (by simp [hq]) rfl)]
  rw [runSteps_succ (step_seq_ret _ _ _ _ (by exact hwf) rfl rfl)]
  simp [hq, hs]; cases q; simp at hq; simp [hq]

/-- A take that finds too few bytes at every tick times out (41_response_buffer.md R96). -/
theorem runSteps_ticks (s : State) (q : Session) (n t m : Nat) (k : Resume) (ts : List Turn) (hwf : s.cfg.wf = true)
    (hp : s.phase = .wait n t k) (hs : s.session = some q) (hn : q.rxq.length < n) (hm : t + (m + 1) = s.cfg.timeoutTicks)
    (ht : s.turns = List.replicate (m + 1) .tick ++ ts) :
    runSteps (m + 1) s = .next { s with turns := ts, phase := .run (.ret .timedOut k) } := by
  induction m generalizing s t with
  | zero => rw [runSteps_succ (step_tick_timedOut s q n t k ts hwf hp hs hn (by omega) (by simpa using ht))]; rfl
  | succ m ih =>
    rw [runSteps_succ (step_tick_wait s q n t k (List.replicate (m + 1) .tick ++ ts) hwf hp hs hn (by omega)
      (by rw [ht, List.replicate_succ, List.cons_append]))]
    exact ih _ (t + 1) hwf rfl hs (by simp; omega) rfl

end Sys2Proof.Machine
end

