-- ==== Sys2Proof/Tests/Slice0.lean ====
section
/-! SUPPORT. Tests of one step each, with results from 95_test_vectors.md or written out by hand from the rule named; the smoke
tests of well-formedness and decoding; and, for each statement with hypotheses, a witness that meets them. -/

namespace Sys2Proof.Tests

open Sys2Proof Sys2Proof.Machine Sys2Proof.Claims

/-! ### Helpers -/

/-- The next state, if there is one. -/
def after : Host.Outcome State Fault Refusal → Option State
  | .next s => some s
  | .fault _ => none
  | .refused _ => none

/-- The refusal, if there is one. -/
def refusal : Host.Outcome State Fault Refusal → Option Refusal
  | .next _ => none
  | .fault _ => none
  | .refused r => some r

/-- The fault, if there is one. -/
def faultOf : Host.Outcome State Fault Refusal → Option Fault
  | .next _ => none
  | .fault f => some f
  | .refused _ => none

/-- A map of two application bytes, the second one the settings, with a take timeout of 2 ticks. -/
def cfg : Config :=
  { Config.default with
    timeoutTicks := 2,
    map := { appStart := 0x8400, appEnd := 0x8401, crcStart := 0x83C0, crcEnd := 0x83FF, nvmStart := 0x8401,
             nvmEnd := 0x8401 } }

/-- An image with every byte of that map. -/
def img : Memory := ((List.range 64).map fun i => (0x83C0 + i, (0x22 : Byte))) ++ [(0x8400, 0x7E), (0x8401, 0x11)]

/-- What `Load` gives for it. -/
def loaded : Image := { app := [0x7E, 0x11], crct := List.replicate 64 0x22, nvm := [0x11] }

/-- An accepted operation at its start. -/
def accepted (w : BitVec 32) (d : List Byte) (ts : List Turn) : State :=
  { State.reset with cfg := cfg, hostop := w, hdata := d, img := img, busy := true, phase := .run .start, turns := ts }

/-- A state inside a session, with `q` received, the command of `k` the last one sent, and SEQ at `p`. -/
def inSession (p : Phase) (k : Resume) (d q : List Byte) (ts : List Turn) : State :=
  { accepted 0 d ts with
    session := some { baud := 57600, rxq := q }, phase := p,
    txlog := [wireForm cfg (cmdBytes cfg (k.awaits cfg d))] }

/-- SEQ waits for `n` bytes, `t` ticks into the take. -/
def waiting (n t : Nat) (k : Resume) (q : List Byte) (ts : List Turn) : State := inSession (.wait n t k) k [] q ts

/-- SEQ stands at the `Send` of `c`. -/
def atSend (c : Cmd) (k : Resume) (q : List Byte) : State := inSession (.run (.call c k)) k [] q []

/-- The take at `k` returned `r`. -/
def returned (r : TakeResult) (k : Resume) (ts : List Turn) : State := inSession (.run (.ret r k)) k [] [] ts

/-! ### WellFormed: each check refuses -/

theorem test_default_wf : Config.default.wf = true := by decide
theorem test_wf_flag_is_esc : { Config.default with flag := 0x7D }.wf = false := by decide
theorem test_wf_flag_not_special : { Config.default with escset := [0x7D] }.wf = false := by decide
theorem test_wf_esc_not_special : { Config.default with escset := [0x7E] }.wf = false := by decide
theorem test_wf_xmask_zero : { Config.default with xmask := 0x00 }.wf = false := by decide
/-- 0x7E xor 0x03 = 0x7D, a special byte again (R10 (d)). -/
theorem test_wf_xor_special : { Config.default with xmask := 0x03 }.wf = false := by decide
theorem test_wf_no_timeout : { Config.default with timeoutTicks := 0 }.wf = false := by decide
theorem test_wf_hdata_max : { Config.default with hdataMax := 135 }.wf = false := by decide
theorem test_map_reversed : { MemMap.default with appEnd := 0x83FF }.ordered = false := by decide
theorem test_map_nvm_outside : { MemMap.default with nvmEnd := 0xC000 }.wf = false := by decide
theorem test_map_crc_overlaps : { MemMap.default with crcStart := 0x83C1, crcEnd := 0x8400 }.wf = false := by decide
theorem test_map_crc_not_one_block : { MemMap.default with crcEnd := 0x83FE }.wf = false := by decide
theorem test_write_63_zero_pad : (Instr.write 0x8400 (List.replicate 63 0)).wf .zeroPad = false := by decide
theorem test_write_65_as_is : (Instr.write 0x8400 (List.replicate 65 0)).wf .asIs = false := by decide

/-! ### Decoding: a word of every row, and what is no instruction -/

theorem test_dec_read : decode .zeroPad (.wire [0x01, 0x04, 0x7E, 0x7D]) = .ok (.read 0x7E7D) := by decide
theorem test_dec_crc : decode .zeroPad (.wire [0x03, 0x02]) = .ok .crc := by decide
theorem test_dec_write : decode .asIs (.wire [0x04, 0x44, 0x84, 0x40, 0x11]) = .ok (.write 0x8440 [0x11]) := by decide
theorem test_dec_encode : decode .zeroPad (.host 0xFFFF0001) = .ok (.encode 0xFFFF) := by decide
theorem test_dec_decode : decode .zeroPad (.host 0x00000002) = .ok (.decode 0) := by decide
theorem test_dec_readBlock : decode .zeroPad (.host 0x84000003) = .ok (.readBlock 0x8400) := by decide
theorem test_dec_writeBlock : decode .zeroPad (.host 0x84000004) = .ok (.writeBlock 0x8400) := by decide
theorem test_dec_checkCrc : decode .zeroPad (.host 0x00000005) = .ok (.checkCrc 0) := by decide
theorem test_dec_verify : decode .zeroPad (.host 0x00000006) = .ok (.verify 0) := by decide
theorem test_dec_flash : decode .zeroPad (.host 0x00000007) = .ok (.flash 0) := by decide

/-- HW1, HW2 and HW3. -/
theorem test_dec_reserved_op :
    decodeHost 0x00000000 = .error .reservedOp ∧ decodeHost 0x00000008 = .error .reservedOp ∧
    decodeHost 0x0000000F = .error .reservedOp := by decide
/-- HW4. -/
theorem test_dec_reserved_bits : decodeHost 0x84000013 = .error .reservedBits := by decide
theorem test_dec_unknown_command :
    decodeWire .zeroPad [0x02, 0x02] = .error .unknownCommand ∧ decodeWire .zeroPad [] = .error .unknownCommand := by decide
theorem test_dec_bad_length_byte : decodeWire .zeroPad [0x03, 0x04] = .error .badLengthByte := by decide
theorem test_dec_wrong_size :
    decodeWire .zeroPad [0x01, 0x04, 0x84] = .error .wrongSize ∧
    decodeWire .zeroPad [0x04, 0x44, 0x84, 0x00, 0x11] = .error .wrongSize := by decide

/-! ### One step after reset, per row of the table -/

theorem test_fetch_read : (after (step (State.reset.withFetchWord 32 0x01048400))).map (·.txlog) =
    some [[0x01, 0x04, 0x84, 0x00, 0x7E]] := by decide
theorem test_fetch_crc : (after (step (State.reset.withFetchWord 16 0x0302))).map (·.txlog) = some [[0x03, 0x02, 0x7E]] := by
  decide
/-- The WRITE of 64 zero bytes has 69 wire bytes (R81). -/
theorem test_fetch_write : (after (step (State.reset.withFetchWord 32 0x04448400))).map (·.txlog) =
    some [[0x04, 0x44, 0x84, 0x00] ++ List.replicate 64 0x00 ++ [0x7E]] := by decide
theorem test_fetch_encode : (after (step (State.reset.withFetchWord 32 0x00000001))).map (·.rdata) = some [0x7E, 0x7E] := by
  decide
/-- FD1: an empty HDATA has no opening flag. -/
theorem test_fetch_decode : (after (step (State.reset.withFetchWord 32 0x00000002))).map (·.result) = some 0x00000109 := by
  decide
theorem test_fetch_readBlock : (after (step (State.reset.withFetchWord 32 0x84000003))).map (·.phase) =
    some (.wait 65 0 (.readBlock 0x8400)) := by decide
theorem test_fetch_writeBlock : (after (step (State.reset.withFetchWord 32 0x84000004))).map (·.phase) =
    some (.wait 1 0 (.writeBlock 0x8400)) := by decide
/-- BP12. -/
theorem test_fetch_checkCrc : (after (step (State.reset.withFetchWord 32 0x00000005))).map (·.result) = some 0x00000002 := by
  decide
theorem test_fetch_verify : (after (step (State.reset.withFetchWord 32 0x00000006))).map (·.plog) =
    some [.error .malformedImage, .verifyFailed] := by decide
theorem test_fetch_flash : (after (step (State.reset.withFetchWord 32 0x00000007))).map (·.plog) =
    some [.error .malformedImage, .flashFailed] := by decide

/-! ### One step of each instruction -/

/-- FC9, the longest READ. -/
theorem test_read_sends : (after (exec (.read 0x7E7D) (atSend .crc (.readBlock 0x7E7D) []))).map (·.txlog.getLast?) =
    some (some [0x01, 0x04, 0x7D, 0x5E, 0x7D, 0x5D, 0x7E]) := by decide
/-- R92: an entry poll that finds the response takes it, and the step ends there; the stale byte stays. -/
theorem test_read_entry_poll : (after (exec (.read 0x8500)
    (atSend (.read 0x8500) (.readBlock 0x8500) (0x03 :: List.replicate 65 0)))).map (fun s => (s.phase, s.rxq, s.busy)) =
    some (.run (.ret (.ok (0x03 :: List.replicate 64 0)) (.readBlock 0x8500)), [0x00], true) := by decide

/-- FC3. -/
theorem test_crc_sends : (after (exec .crc (atSend .crc (.crcStatus .checkCrc) []))).map (·.txlog.getLast?) =
    some (some [0x03, 0x02, 0x7E]) := by decide
/-- BP13's last step: the check answered 05. -/
theorem test_crc_status : (after (step (returned (.ok [0x05]) (.crcStatus .checkCrc) [.seq]))).map (·.result) =
    some 0x00000525 := by decide

/-- BP8: a short WRITE under AS_IS keeps the length byte 0x44. -/
theorem test_write_as_is :
    (after (exec (.write 0x8400 [0x7E, 0x11]) { atSend .crc (.writeBlock 0x8400) [] with
      cfg := { cfg with ragged := .asIs } })).map (·.txlog.getLast?) =
    some (some [0x04, 0x44, 0x84, 0x00, 0x7D, 0x5E, 0x11, 0x7E]) := by decide
/-- BP9's last step: the WRITE answered 07. -/
theorem test_write_status : (after (step (returned (.ok [0x07]) (.writeBlock 0x8400) [.seq]))).map (·.result) =
    some 0x84000724 := by decide

/-- HW5. -/
theorem test_encode : (after (exec (.encode 0xFFFF) (accepted 0xFFFF0001 [0x01, 0x04, 0x7E, 0x7D] []))).map
    (fun s => (s.rdata, s.result, s.busy, s.done)) =
    some ([0x7E, 0x01, 0x04, 0x7D, 0x5E, 0x7D, 0x5D, 0x7E], 0, false, true) := by decide

/-- HW6: BadEscape. -/
theorem test_decode_error : (after (exec (.decode 0) (accepted 2 [0x7E, 0x7D, 0x41, 0x7E] []))).map
    (fun s => (s.result, s.rdata)) = some (0x00000409, []) := by decide
/-- FD17. -/
theorem test_decode_ok : (after (exec (.decode 0) (accepted 2 [0x7E, 0x03, 0x02, 0x7E] []))).map
    (fun s => (s.result, s.rdata)) = some (0, [0x03, 0x02]) := by decide

/-- BP1's send. -/
theorem test_readBlock_sends : (after (exec (.readBlock 0x8400) (accepted 0x84000003 [] []))).map
    (fun s => (s.txlog, s.status)) = some ([[0x01, 0x04, 0x84, 0x00, 0x7E]], 0x05) := by decide

/-- BP4. -/
theorem test_writeBlock_size : (after (exec (.writeBlock 0x8400) (accepted 0x84000004 (List.replicate 65 0) []))).map
    (fun s => (s.result, s.txlog, s.session)) = some (0x00000001, [], none) := by decide

/-- BP10. -/
theorem test_checkCrc_size : (after (exec (.checkCrc 0) (accepted 5 (List.replicate 63 0) []))).map
    (fun s => (s.result, s.txlog)) = some (0x00000002, []) := by decide
/-- BP3b's last step: the READ answered status 03. -/
theorem test_read_status : (after (step (returned (.ok (0x03 :: List.replicate 64 0)) (.readBlock 0x8500) [.seq]))).map
    (fun s => (s.result, s.rdata)) = some (0x85000323, []) := by decide
/-- BP14: the table WRITE answers 09; no CRC command is sent. -/
theorem test_checkCrc_table :
    (after (step (returned (.ok [0x09]) (.crcTable .checkCrc) [.seq]))).map (fun s => (s.result, s.txlog.length)) =
    some (0x83C00924, 1) := by decide

/-- OR3's shape on the two-byte map: the second byte differs. -/
theorem test_verify_mismatch :
    (after (step (returned (.ok (0x00 :: 0x7E :: List.replicate 63 0xFF)) (.rangeRead .application 0x8400 [] loaded)
      [.seq]))).map (fun s => (s.result, s.plog)) =
    some (0x84010006, [.dot, .error (.verificationMismatch 0x8401), .verifyFailed]) := by decide

/-- R133: the byte count comes before the first WRITE, which ZERO_PAD fills to 64 bytes. -/
theorem test_flash_starts : (after (exec (.flash 0) (accepted 7 [] []))).map (fun s => (s.plog, s.txlog)) =
    some ([.byteCount 2], [[0x04, 0x44, 0x84, 0x00, 0x7D, 0x5E, 0x11] ++ List.replicate 62 0x00 ++ [0x7E]]) := by decide
/-- OR2's end: the CRC command answers 02. -/
theorem test_flash_crc : (after (step (returned (.ok [0x02]) (.crcStatus (.flash loaded)) [.seq]))).map
    (fun s => (s.result, s.plog)) =
    some (0x00000225, [.error (.crcCheckFailed (.status 0x02)), .flashFailed]) := by decide

/-- TK5: at the last tick the data test comes first. -/
theorem test_tick_data_first : (after (step (waiting 1 1 (.writeBlock 0x8400) [0xAA] [.tick]))).map (·.phase) =
    some (.run (.ret (.ok [0xAA]) (.writeBlock 0x8400))) := by decide
/-- BP3: too few bytes until the timeout. -/
theorem test_timeout_word : (after (step (returned .timedOut (.readBlock 0x8500) [.seq]))).map (·.result) =
    some 0x85000013 := by decide
/-- TK11. -/
theorem test_rx_full :
    (after (step { waiting 65 0 (.readBlock 0) [0x01, 0x02] [.rx 0x03] with
      cfg := { cfg with rxCapacity := some 2 } })).map (fun s => (s.rxq, s.fault)) = some ([0x01, 0x02], true) := by decide
theorem test_seq_not_enabled :
    refusal (step (waiting 65 0 (.readBlock 0) [] [.seq])) = some .seqNotEnabled ∧
    refusal (step { State.reset with turns := [.seq] }) = some .seqNotEnabled := by decide

/-! ### Witnesses: states and operands that meet the hypotheses of the statements -/

theorem witness_instr_wf :
    (Instr.write 0xFFFF (List.replicate 64 0x7E)).wf .zeroPad = true ∧ (Instr.write 0 []).wf .asIs = true ∧
    (Instr.write 0 (List.replicate 64 0)).wf .asIs = true := by decide

theorem witness_reserved_word :
    (0x00000000 : BitVec 32).extractLsb' 0 4 = 0 ∧ 8 ≤ ((0x00000008 : BitVec 32).extractLsb' 0 4).toNat ∧
    8 ≤ ((0x0000000F : BitVec 32).extractLsb' 0 4).toNat ∧ (0x84000013 : BitVec 32).extractLsb' 4 12 ≠ 0 := by decide
theorem witness_reserved_state (w : BitVec 32) :
    (accepted w [] [.seq]).cfg.wf = true ∧ (accepted w [] [.seq]).phase = .run .start ∧
    (accepted w [] [.seq]).session = none := ⟨show cfg.wf = true by decide, rfl, rfl⟩

theorem witness_codec : Config.default.codecWf = true ∧ Config.default.dropFirst = true := by decide
theorem witness_decode_ok : decodeFrame Config.default [0x7E, 0x7D, 0x5E, 0x7E] = .ok [0x7E] := by decide
/-- Every reason, each ending R82 gives it: no opening flag, nothing after the payload, a lone `ESC`, `ESC FLAG`, an escape of a
plain byte, bytes after the closing flag, and a raw special byte, which needs a third byte in ESCSET. -/
theorem witness_decode_errors :
    decodeFrame Config.default [] = .error .noOpenFlag ∧
    decodeFrame Config.default [0x7E, 0x7D, 0x5E] = .error .unterminated ∧
    decodeFrame Config.default [0x7E, 0x01, 0x7D] = .error .unterminated ∧
    decodeFrame Config.default [0x7E, 0x01, 0x7D, 0x7E] = .error .escapeFlag ∧
    decodeFrame Config.default [0x7E, 0x7D, 0x41, 0x7E] = .error .badEscape ∧
    decodeFrame Config.default [0x7E, 0x01, 0x7E, 0x00] = .error .trailingBytes ∧
    { Config.default with escset := [0x7E, 0x7D, 0x11] }.codecWf = true ∧
    decodeFrame { Config.default with escset := [0x7E, 0x7D, 0x11] } [0x7E, 0x11, 0x7E] = .error .rawSpecial := by decide
theorem witness_equal_frames : encodeFrame Config.default [0x7E] = encodeFrame Config.default [0x7E] := by decide
theorem witness_write_data : (List.replicate 64 (0x7D : Byte)).length = 64 ∧
    (∀ a d, Cmd.crc = .write a d → d.length = 64) := ⟨by decide, nofun⟩

/-- SEQ at a `Send`, with one byte too few, and with enough, of the longest response. -/
theorem witness_at_send : ∀ n ∈ [0, 1, 64, 65, 66],
    (atSend .crc (.readBlock 0) (List.replicate n 0)).phase = .run (.call .crc (.readBlock 0)) ∧
    (atSend .crc (.readBlock 0) (List.replicate n 0)).session = some { baud := 57600, rxq := List.replicate n 0 } ∧
    1 ≤ (atSend .crc (.readBlock 0) (List.replicate n 0)).cfg.timeoutTicks := by decide
theorem witness_off_send :
    faultOf (exec .crc State.reset) = some .notAtCommand ∧
    (after (exec .crc (atSend .crc (.crcStatus .checkCrc) []))).isSome = true := by decide
theorem witness_write_sizes :
    (List.replicate 64 (0 : Byte)).length ≤ 64 ∧ 64 < (List.replicate 65 (0 : Byte)).length ∧
    ({ cfg with ragged := .asIs } : Config).wf = true := by decide

theorem witness_first_step : ∀ n ∈ [0, 63, 64, 65, 136],
    (accepted 5 (List.replicate n 0) []).cfg.wf = true ∧ 1 ≤ (accepted 5 (List.replicate n 0) []).cfg.timeoutTicks ∧
    (accepted 5 (List.replicate n 0) []).session = none ∧ (accepted 5 (List.replicate n 0) []).hdata.length = n := by decide

/-- Images that lack the last byte of one region (the settings byte is an application byte too). -/
theorem witness_load_missing :
    load cfg.map (img.filter (·.1 != 0x8401)) = none ∧ load cfg.map (img.filter (·.1 != 0x83FF)) = none ∧
    Memory.read (img.filter (·.1 != 0x83FF)) 0x83FF = none := by decide
theorem witness_load : cfg.wf = true ∧ cfg.map.wf = true ∧ img.wf = true ∧ load cfg.map img = some loaded ∧ load cfg.map [] = none := by decide

theorem accepted_of {w : BitVec 32} {d : List Byte} {ts : List Turn} : Accepted (accepted w d ts) w ts :=
  ⟨show cfg.wf = true by decide, rfl, rfl, rfl, rfl⟩

theorem witness_read_block_runs :
    (List.replicate 64 (0xFF : Byte)).length = 64 ∧
    Accepted (accepted (hostWord 0x8400 0x3) [] (.seq :: answerRead 0 (List.replicate 64 0xFF) ++ []))
      (hostWord 0x8400 0x3) (.seq :: answerRead 0 (List.replicate 64 0xFF) ++ []) ∧
    (List.replicate 64 (0xFF : Byte)).length < 65 ∧
    Accepted (accepted (hostWord 0x8400 0x3) [] (.seq :: silence cfg.timeoutTicks (List.replicate 64 0xFF) ++ []))
      (hostWord 0x8400 0x3) (.seq :: silence cfg.timeoutTicks (List.replicate 64 0xFF) ++ []) :=
  ⟨by decide, accepted_of, by decide, accepted_of⟩

theorem witness_write_block_runs :
    Accepted (accepted (hostWord 0x8400 0x4) (List.replicate 64 0) (.seq :: answer 7 ++ [])) (hostWord 0x8400 0x4)
      (.seq :: answer 7 ++ []) ∧
    Accepted (accepted (hostWord 0x8400 0x4) [] (.seq :: silence cfg.timeoutTicks [] ++ [])) (hostWord 0x8400 0x4)
      (.seq :: silence cfg.timeoutTicks [] ++ []) ∧
    Accepted (accepted (hostWord 0x8400 0x4) (List.replicate 65 0) (.seq :: [])) (hostWord 0x8400 0x4) (.seq :: []) :=
  ⟨accepted_of, accepted_of, accepted_of⟩

theorem witness_check_crc_runs (ts : List Turn) :
    Accepted (accepted (hostWord 0 0x5) (List.replicate 64 0x11) (.seq :: ts)) (hostWord 0 0x5) (.seq :: ts) ∧
    (accepted (hostWord 0 0x5) (List.replicate 64 0x11) (.seq :: ts)).hdata.length = 64 ∧
    (accepted (hostWord 0 0x5) (List.replicate 63 0x11) (.seq :: ts)).hdata.length ≠ 64 :=
  ⟨accepted_of, by simp [accepted], by simp [accepted]⟩

/-- One block answers the two-byte application region, and one the settings region. -/
theorem witness_verify_runs : load cfg.map img = some loaded ∧ [List.replicate 64 (0x7E : Byte)].length = blocks 2 ∧
    (∀ b ∈ [List.replicate 64 (0x7E : Byte)], b.length = 64) ∧ blocks 1 = 1 := by decide
theorem witness_verify_accepted (ts : List Turn) :
    Accepted (accepted (hostWord 0 0x6) [] (.seq :: ts)) (hostWord 0 0x6) (.seq :: ts) ∧
    (accepted (hostWord 0 0x6) [] (.seq :: ts)).img = img ∧ (accepted (hostWord 0 0x6) [] (.seq :: ts)).cfg = cfg :=
  ⟨accepted_of, rfl, rfl⟩
theorem witness_flash_accepted (ts : List Turn) :
    Accepted (accepted (hostWord 0 0x7) [] (.seq :: ts)) (hostWord 0 0x7) (.seq :: ts) ∧
    (accepted (hostWord 0 0x7) [] (.seq :: ts)).img = img ∧ (accepted (hostWord 0 0x7) [] (.seq :: ts)).cfg = cfg :=
  ⟨accepted_of, rfl, rfl⟩

/-- TK8. -/
theorem witness_take : takeBytes 1 [0x00, 0x05] = some ([0x00], [0x05]) ∧ takeBytes 0 [] = some ([], []) := by decide

/-- A tick: enough bytes; one too few at the last tick of the take; one too few before it; and no wait. -/
theorem witness_ticks :
    cfg.wf = true ∧
    (after (step (waiting 65 1 (.readBlock 0) (List.replicate 65 0) [.tick]))).map (·.rxq) = some [] ∧
    (after (step (waiting 65 1 (.readBlock 0) (List.replicate 64 0) [.tick]))).map (·.phase) =
      some (.run (.ret .timedOut (.readBlock 0))) ∧
    (after (step (waiting 65 0 (.readBlock 0) (List.replicate 64 0) [.tick]))).map (·.phase) =
      some (.wait 65 1 (.readBlock 0)) ∧
    (after (step { State.reset with turns := [.tick] })).isSome = true := by decide

theorem witness_take_ends :
    0 < cfg.timeoutTicks ∧ cfg.timeoutTicks ≤ 0 + [Turn.tick, .rx 0x01, .tick].count .tick ∧
    (∀ x ∈ [Turn.tick, .rx 0x01, .tick], x = .tick ∨ x = .rx 0x01) := by decide

theorem witness_full_buffer :
    { cfg with rxCapacity := some 2 }.wf = true ∧ [(0x01 : Byte), 0x02].length = 2 ∧ [(0x01 : Byte)].length < 2 := by decide
/-- TK10: outside a session a byte is discarded, also by a finite build. -/
theorem witness_rx :
    (after (step (waiting 65 0 (.readBlock 0) [0x01] [.rx 0x02]))).map (·.rxq) = some [0x01, 0x02] ∧
    (after (step { State.reset with turns := [.rx 0xAA] })).map (·.session) = some none ∧
    { Config.default with rxCapacity := some 0 }.wf = true ∧
    (after (step { State.reset with cfg := { Config.default with rxCapacity := some 0 }, turns := [.rx 0xAA] })).map
      (·.fault) = some false := by decide

/-- An issue: with the longest HDATA, with one byte more, and while BUSY = 1. -/
theorem witness_issue :
    State.reset.cfg.wf = true ∧ State.reset.busy = false ∧
    (List.replicate 136 (0 : Byte)).length ≤ State.reset.cfg.hdataMax ∧
    State.reset.cfg.hdataMax < (List.replicate 137 (0 : Byte)).length ∧
    refusal (step (waiting 65 0 (.readBlock 0) [] [.issue 3 [] []])) = some .issueWhileBusy :=
  ⟨by decide, rfl, by simp [State.reset, Config.default], by simp [State.reset, Config.default], by decide⟩

theorem witness_region :
    (0xFFFF : Addr) ≤ 0xFFFF ∧ region [(0xFFFF, 0x55)] 0xFFFF 0xFFFF = some [0x55] ∧
    region [(0xFFFF, 0x55)] 0xFFFE 0xFFFF = none := by decide
theorem witness_counter : (0x0FFFF : BitVec 17).toNat ≤ (0xFFFF : Addr).toNat := by decide

/-- An error raised after a take, for each owner: a timeout of READ_BLOCK, VERIFY's mismatch after a good exchange, a status of
FLASH's CRC exchange. -/
theorem witness_raise :
    cfg.wf = true ∧
    (resume .timedOut (.readBlock 0) (returned .timedOut (.readBlock 0) [])).phase =
      .run (.raise (.blockReadFailed 0 .timedOut) .primitive) ∧
    (resume (.ok (List.replicate 65 0)) (.rangeRead .application 0x8400 [] loaded)
      (returned (.ok (List.replicate 65 0)) (.rangeRead .application 0x8400 [] loaded) [])).phase =
      .run (.raise (.verificationMismatch 0x8400) .verify) ∧
    (resume (.ok [0x02]) (.crcStatus (.flash loaded)) (returned (.ok [0x02]) (.crcStatus (.flash loaded)) [])).phase =
      .run (.raise (.crcCheckFailed (.status 0x02)) .flash) := by decide

/-- The mismatch's state before its step meets the invariant, so that a run reaches the raise. -/
theorem witness_inv_raise :
    (returned (.ok (List.replicate 65 0)) (.rangeRead .application 0x8400 [] loaded) [.seq]).Inv :=
  ⟨by decide, by decide, by decide, by rintro q ⟨⟩; rfl, by decide, show img.wf = true by decide, by decide,
    nofun, by rintro k ⟨⟩; rfl, ⟨by decide, ⟨rfl, rfl, rfl⟩, rfl, by decide, by decide⟩⟩

/-- A timeout and a status, at an exchange of each owner. -/
theorem witness_failed_exchange :
    (∀ k ∈ [Resume.readBlock 0, .rangeRead .application 0x8400 [] loaded, .flashWrite 0x8400 0 loaded],
      (returned .timedOut k [.seq]).phase = .run (.ret .timedOut k) ∧
      (returned (.ok [0x07]) k [.seq]).phase = .run (.ret (.ok [0x07]) k)) ∧ (0x07 : Byte) ≠ 0 ∧ cfg.wf = true := by decide

/-- An exchange under way meets the invariant: SEQ waits in the first WRITE of FLASH, at the last tick before the timeout. -/
theorem witness_inv_wait : (waiting 1 1 (.flashWrite 0x8400 0 loaded) [] []).Inv :=
  ⟨by decide, by decide, by decide, by rintro q ⟨⟩; rfl, by decide, show img.wf = true by decide, by decide,
    nofun, by rintro k ⟨⟩; rfl, ⟨rfl, by decide, ⟨rfl, rfl, rfl⟩, rfl, by decide, by decide⟩⟩

/-- So does a take that has just returned a block, inside READ_BLOCK. -/
theorem witness_inv_returned : (returned (.ok (List.replicate 65 0)) (.readBlock 0x8400) []).Inv :=
  ⟨by decide, by decide, by decide, by rintro q ⟨⟩; rfl, by decide, show img.wf = true by decide, by decide,
    nofun, by rintro k ⟨⟩; rfl, ⟨by decide, trivial⟩⟩

/-- So does an operation at its start. -/
theorem witness_inv_start : (accepted 7 [] []).Inv :=
  ⟨by decide, by decide, by decide, nofun, by decide, show img.wf = true by decide, by decide, nofun, nofun, trivial⟩

theorem witness_inv_runs :
    cfg.wf = true ∧ (waiting 1 1 (.flashWrite 0x8400 0 loaded) [] []).busy = true ∧
    (after (step (waiting 1 1 (.flashWrite 0x8400 0 loaded) [] []))).isSome = true ∧
    (after (step (returned (.ok (List.replicate 65 0)) (.readBlock 0x8400) []))).isSome = true ∧
    (after (step (accepted 7 [] []))).isSome = true := by decide

/-- Reset during an operation, with FAULT set (R156, R158). -/
theorem witness_reset_turn :
    (after (step { waiting 65 0 (.readBlock 0) [0x01] [.reset] with fault := true })).map
      (fun s => (s.session, s.status, s.fault)) = some (none, 0, false) := by
  decide

/-- FAULT stays set over a step that is no reset. -/
theorem witness_fault_sticky :
    (after (step { waiting 65 0 (.readBlock 0) [] [.rx 0x01] with fault := true })).map (·.fault) = some true := by decide

/-- The start of an operation, a `Send`, and a placed word, each with and without an agenda. -/
theorem witness_step_runs :
    decode cfg.ragged (.host (accepted 7 [] []).hostop) = .ok (.flash 0) ∧
    (after (step (accepted 7 [] [.seq]))).isSome = true ∧ (after (step (accepted 7 [] []))).isSome = true ∧
    (after (step { atSend .crc (.crcStatus .checkCrc) [] with turns := [.seq] })).isSome = true ∧
    (after (step (atSend .crc (.crcStatus .checkCrc) []))).isSome = true ∧
    decodeTableWord 16 0x0302 = some .crc ∧ State.reset.turns = [] := by decide

/-- After a take SEQ reaches the next command, raises an error after a good exchange, or completes. -/
theorem witness_goes_on :
    (resume (.ok [0x00]) (.crcTable .checkCrc) (returned (.ok [0x00]) (.crcTable .checkCrc) [])).phase =
      .run (.call .crc (.crcStatus .checkCrc)) ∧
    (resume (.ok (List.replicate 65 0)) (.rangeRead .settings 0x8401 [] loaded)
      (returned (.ok (List.replicate 65 0)) (.rangeRead .settings 0x8401 [] loaded) [])).phase =
      .run (.raise (.verificationMismatch 0x8401) .flash) ∧
    (resume (.ok [0x00]) (.writeBlock 0) (returned (.ok [0x00]) (.writeBlock 0) [])).phase = .idle ∧
    (after (step (returned (.ok [0x00]) (.crcTable .checkCrc) [.seq]))).map (·.phase) =
      some (.wait 1 0 (.crcStatus .checkCrc)) := by decide

/-- A SEQ step that completes, one whose take waits, and one whose entry poll takes a byte that was there already (TK8). -/
theorem witness_seq_step_ends :
    (after (step (returned (.ok [0x00]) (.writeBlock 0) [.seq]))).map (·.phase) = some .idle ∧
    (after (step (returned (.ok [0x00]) (.crcTable .checkCrc) [.seq]))).map (·.phase) =
      some (.wait 1 0 (.crcStatus .checkCrc)) ∧
    (after (step (inSession (.run (.ret (.ok [0x00]) (.crcTable .checkCrc))) (.crcTable .checkCrc) [] [0x05] [.seq]))).map
      (fun s => (s.phase, s.txlog.length)) = some (.run (.ret (.ok [0x05]) (.crcStatus .checkCrc)), 2) := by decide

theorem witness_no_report :
    (Resume.crcStatus .checkCrc).owner = .primitive ∧
    (after (exec .crc (atSend .crc (.crcStatus .checkCrc) [0x05]))).isSome = true ∧
    (after (step (returned .timedOut (.readBlock 0) [.seq]))).isSome = true ∧
    (after (step (waiting 65 0 (.readBlock 0) [] [.tick]))).isSome = true ∧
    (∀ a, Instr.crc ≠ .verify a) ∧ (∀ a, Instr.crc ≠ .flash a) :=
  ⟨by decide, by decide, by decide, by decide, nofun, nofun⟩

/-- A step that sends, with no reset on the agenda. -/
theorem witness_sends :
    (after (step (accepted 7 [] [.seq]))).isSome = true ∧ (∀ ts, (accepted 7 [] [.seq]).turns ≠ .reset :: ts) :=
  ⟨by decide, nofun⟩

/-- A step while a response is outstanding, with no reset on the agenda. -/
theorem witness_outstanding :
    (after (step (waiting 65 0 (.readBlock 0) [] [.tick]))).isSome = true ∧
    (∀ ts, (waiting 65 0 (.readBlock 0) [] [.tick]).turns ≠ .reset :: ts) := ⟨by decide, nofun⟩

end Sys2Proof.Tests
end

section
/-! The scope rules (00_scope.md): a configuration outside R10 and R45 has no meaning. -/

namespace Sys2Proof.Machine

/-- The refusal of R147 (b). -/
theorem step_of_not_wf {s : State} (h : ¬ s.cfg.wf = true) : step s = .refused .illFormedConfig := by
  simp [step, h]

theorem codecWf_of_wf {c : Config} (h : c.wf = true) : c.codecWf = true := by
  simp only [Config.wf, Bool.and_eq_true] at h
  exact h.1.1.1

/-- R45 (c), the condition that `map_bounds` leaves out. -/
theorem crcTable_disjoint_app {m : MemMap} (h : m.wf = true) : m.crcEnd < m.appStart ∨ m.appEnd < m.crcStart := by
  simp only [MemMap.wf, Bool.and_eq_true] at h
  obtain ⟨⟨-, apart⟩, -⟩ := h
  simpa [MemMap.crcApart] using apart

/-- Settles O47: `step` refuses whatever is not well-formed, and each listed breach contradicts one condition that
well-formedness gives. -/
theorem illFormedConfigurationRefused : Obligations.IllFormedConfigurationRefused := by
  intro s broken
  refine step_of_not_wf fun hwf => ?_
  have codec := codecConditions (codecWf_of_wf hwf)
  have ticks := timeoutTicks_pos hwf
  have apart := crcTable_disjoint_app (map_wf hwf)
  obtain ⟨appOrd, crcOrd, nvmOrd, nvmLow, nvmHigh, oneBlock⟩ := map_bounds (map_wf hwf)
  simp only [← BitVec.le_def, ← BitVec.not_lt] at appOrd crcOrd nvmOrd nvmLow nvmHigh
  rcases broken with flagEsc | flagOut | escOut | xmaskZero | ⟨b, hb, xorFlag | xorSpecial⟩ | noTicks |
    appRev | crcRev | nvmRev | nvmBelow | nvmAbove | overlap | notBlock
  · exact codec.flag_ne_esc flagEsc
  · exact flagOut codec.flag_mem
  · exact escOut codec.esc_mem
  · exact codec.xmask_ne xmaskZero
  · exact codec.xor_ne_flag b hb xorFlag
  · exact codec.xor_not_mem b hb xorSpecial
  · omega
  · exact appOrd appRev
  · exact crcOrd crcRev
  · exact nvmOrd nvmRev
  · exact nvmLow nvmBelow
  · exact nvmHigh nvmAbove
  · exact overlap apart
  · exact notBlock oneBlock

end Sys2Proof.Machine
end

section
/-! The configuration over a step (10_state.md R20): each agent's turn leaves it as it was, and so does the step. -/

namespace Sys2Proof.Machine

theorem Next.cfg_eq {o : Owner} {s s' : State} (h : Next o s s') : s'.cfg = s.cfg := by
  cases h with
  | goTo _ _ _ _ _ _ h => simp [h]
  | raise _ _ _ h => simp [h]
  | finish _ _ _ h => simp [h]

theorem Started.cfg_eq {s s' : State} (h : Started s s') : s'.cfg = s.cfg := by
  cases h with
  | completed _ _ h => simp [h]
  | aborted _ _ h => simp [h]
  | ran _ _ _ hn h => simp [h, hn.cfg_eq]

theorem seqTurn_cfg {s s' : State} (h : seqTurn s = .next s') : s'.cfg = s.cfg := by
  obtain ⟨-, started | rfl⟩ | ⟨-, rfl⟩ | ⟨r, k, -, rfl⟩ | ⟨-, rfl⟩ := seqTurn_cases h
  · exact started.cfg_eq
  all_goals simp

theorem hostIssue_cfg {w : BitVec 32} {d : List Byte} {m : List (Addr × Byte)} {s s' : State}
    (h : hostIssue w d m s = .next s') : s'.cfg = s.cfg := by
  obtain ⟨-, -, rfl⟩ := hostIssue_cases h
  simp

@[simp] theorem rxAppend_cfg (b : Byte) (s : State) : (rxAppend b s).cfg = s.cfg := by
  obtain ⟨-, h⟩ | ⟨_, _, -, -, -, h⟩ | ⟨_, -, -, h⟩ := rxAppend_cases b s <;> rw [h]

@[simp] theorem timeTick_cfg (s : State) : (timeTick s).cfg = s.cfg := by
  unfold timeTick
  split
  · exact poll_cfg _ _ _ _
  all_goals rfl

@[simp] theorem resetTurn_cfg (s : State) : (resetTurn s).cfg = s.cfg := rfl

/-- No agent writes the configuration, one case per agent. -/
theorem takeTurn_cfg {t : Turn} {s s' : State} (h : takeTurn t s = .next s') : s'.cfg = s.cfg := by
  cases t with
  | issue w d m => exact hostIssue_cfg h
  | seq => exact seqTurn_cfg h
  | rx b => cases h; exact rxAppend_cfg b s
  | tick => cases h; exact timeTick_cfg s
  | reset => cases h; exact resetTurn_cfg s

/-- Settles O45: a step is one agent's turn, in a state that differs from the present one in its agenda at most. -/
theorem noStepWritesConfiguration : Obligations.NoStepWritesConfiguration := by
  intro s s' h
  obtain ⟨-, he⟩ | ⟨t, ts, -, he⟩ := step_turn s (step_wf h)
  · exact takeTurn_cfg (he.symm.trans h)
  · exact takeTurn_cfg (s := { s with turns := ts }) (he.symm.trans h)

end Sys2Proof.Machine
end

section
/-! The default configuration (00_scope.md R10, 20_memory.md R44 to R46): each part of its well-formedness, and the sizes of
its regions in blocks. -/

namespace Sys2Proof.Machine

/-- A whole number of blocks has no short final chunk to round up for. -/
theorem blocks_block_mul (n : Nat) : Claims.blocks (64 * n) = n := by
  simp only [Claims.blocks]
  omega

theorem default_codecWf : Config.default.codecWf = true := by decide

theorem default_map_wf : Config.default.map.wf = true := by decide

/-- R10's conditions on the codec and on the map, with one tick or more and room for the longest frame. -/
theorem default_wf : Config.default.wf = true := by
  have ticks : 1 ≤ Config.default.timeoutTicks := by decide
  have room : 136 ≤ Config.default.hdataMax := by decide
  simp [Config.wf, default_codecWf, default_map_wf, ticks, room]

/-- Settles O48: the default configuration meets R10 part by part, and the sizes that the default map's bounds give are
240, 1 and 8 times the block. -/
theorem defaultMapIsWellFormed : Obligations.DefaultMapIsWellFormed := by
  have appSize : Config.default.map.appEnd.toNat + 1 - Config.default.map.appStart.toNat = 15360 := by decide
  have crcSize : Config.default.map.crcEnd.toNat + 1 - Config.default.map.crcStart.toNat = 64 := by decide
  have nvmSize : Config.default.map.nvmEnd.toNat + 1 - Config.default.map.nvmStart.toNat = 512 := by decide
  exact ⟨default_wf, appSize, blocks_block_mul 240, rfl, crcSize, nvmSize, blocks_block_mul 8, rfl⟩

end Sys2Proof.Machine
end

section
/-! Reserved HOSTOP words (30_encoding.md R71): they decode to no instruction, so SEQ's turn is the abort with IllegalOp. -/

namespace Sys2Proof.Machine

/-- OP 0x0 and 0x8 to 0xF are reserved, and so is every word whose RSV is not 0. -/
theorem decodeHost_reserved {w : BitVec 32}
    (h : hostOpField w = 0 ∨ 8 ≤ (hostOpField w).toNat ∨ hostRsvField w ≠ 0) : ∃ x, decodeHost w = .error x := by
  unfold decodeHost
  by_cases hrsv : hostRsvField w = 0
  · have op : (hostOpField w).toNat = 0 ∨ 8 ≤ (hostOpField w).toNat := by
      obtain h0 | h8 | hne := h
      · exact .inl (by simp [h0])
      · exact .inr h8
      · exact absurd hrsv hne
    rw [if_neg (by simp [hrsv])]
    dsimp only
    split
    case h_8 => exact ⟨_, rfl⟩
    all_goals omega
  · exact ⟨.reservedBits, if_pos hrsv⟩

theorem seqTurn_reserved {s : State} {x : Reject} (hp : s.phase = .run .start)
    (hd : decode s.cfg.ragged (.host s.hostop) = .error x) : seqTurn s = .next (abort .illegalOp .primitive s) := by
  simp [seqTurn, fetch, hp, hd]

/-- Settles O4: the word is rejected, and with no session open the abort of a primitive operation writes the host-facing
registers and SEQ's control point alone. -/
theorem reservedWordCompletesIllegalOp : Obligations.ReservedWordCompletesIllegalOp := by
  intro s ts hwf hp hs ht reserved
  obtain ⟨x, hx⟩ := decodeHost_reserved reserved
  have turn : seqTurn { s with turns := ts } = .next (abort .illegalOp .primitive { s with turns := ts }) :=
    seqTurn_reserved hp hx
  have word : Err.illegalOp.word = 0x00000008 := by decide
  rw [step_cons hwf ht, takeTurn, turn, abort_eq]
  simp [word, failureEvents, hs]

end Sys2Proof.Machine
end

section
/-! What a step sends (30_encoding.md R72): each agent's turn adds to TXLOG the wire forms of well-formed wire commands, and
nothing else. -/

namespace Sys2Proof.Machine

/-- The instruction whose code a call of `c` sends: a WRITE carries its padded data (42_block_primitives.md R107). -/
def sentInstr (cfg : Config) : Cmd → Instr
  | .read a => .read a
  | .crc => .crc
  | .write a d => .write a (pad cfg d)

theorem encode_sentInstr (cfg : Config) (c : Cmd) : encode (sentInstr cfg c) = .wire (cmdBytes cfg c) := by
  cases c <;> rfl

/-- Padding brings data of at most one block to a size the padding policy admits (R61, R107). -/
theorem write_pad_wf (cfg : Config) (a : Addr) {d : List Byte} (h : d.length ≤ Config.block) :
    (Instr.write a (pad cfg d)).wf cfg.ragged = true := by
  cases hpol : cfg.ragged with
  | zeroPad => simp [Instr.wf, pad, hpol, h]
  | asIs => simp [Instr.wf, pad, hpol, h]

theorem sentInstr_wf (cfg : Config) {c : Cmd} (h : ∀ a d, c = .write a d → d.length ≤ Config.block) :
    (sentInstr cfg c).wf cfg.ragged = true := by
  cases c with
  | read a => rfl
  | crc => rfl
  | write a d => exact write_pad_wf cfg a (h a d rfl)

/-- `w` is the wire form of a well-formed wire command's code. -/
def IsCommandForm (cfg : Config) (w : List Byte) : Prop :=
  ∃ i p, encode i = .wire p ∧ i.wf cfg.ragged = true ∧ w = wireForm cfg p

/-- The log grew from `log` to `log'` by wire forms of commands alone. -/
def AddsCommands (cfg : Config) (log log' : List (List Byte)) : Prop :=
  ∃ new, log' = log ++ new ∧ ∀ w ∈ new, IsCommandForm cfg w

theorem AddsCommands.of_eq {cfg : Config} {log log' : List (List Byte)} (h : log' = log) : AddsCommands cfg log log' :=
  ⟨[], by simp [h], nofun⟩

theorem AddsCommands.trans {cfg : Config} {l₁ l₂ l₃ : List (List Byte)} (h₁₂ : AddsCommands cfg l₁ l₂)
    (h₂₃ : AddsCommands cfg l₂ l₃) : AddsCommands cfg l₁ l₃ := by
  obtain ⟨n₁, rfl, hn₁⟩ := h₁₂
  obtain ⟨n₂, rfl, hn₂⟩ := h₂₃
  refine ⟨n₁ ++ n₂, List.append_assoc _ _ _, fun w hw => ?_⟩
  obtain hw | hw := List.mem_append.mp hw
  · exact hn₁ w hw
  · exact hn₂ w hw

/-- A call sends nothing, or the one command it is, whose data passed the size test. -/
theorem callCmd_addsCommands (c : Cmd) (k : Resume) (s : State) : AddsCommands s.cfg s.txlog (callCmd c k s).txlog := by
  obtain ⟨_, _, -, -, he⟩ | ⟨size, he⟩ := callCmd_cases c k s
  · exact .of_eq (by simp [he])
  · have form : IsCommandForm s.cfg (wireForm s.cfg (cmdBytes s.cfg c)) :=
      ⟨sentInstr s.cfg c, _, encode_sentInstr _ _, sentInstr_wf _ size, rfl⟩
    exact ⟨[wireForm s.cfg (cmdBytes s.cfg c)], by simp [he], by simpa using form⟩

theorem seqFinish_addsCommands (s : State) : AddsCommands s.cfg s.txlog (seqFinish s).txlog := by
  have keeps : (seqFinish s).cfg = s.cfg ∧ AddsCommands s.cfg s.txlog (seqFinish s).txlog := by
    refine seqFinish_keeps (fun s' => s'.cfg = s.cfg ∧ AddsCommands s.cfg s.txlog s'.txlog) ?_ ?_ s ⟨rfl, .of_eq rfl⟩
    · rintro c k s' - ⟨hcfg, hadds⟩
      exact ⟨by simp [hcfg], hadds.trans (hcfg ▸ callCmd_addsCommands c k s')⟩
    · rintro e o s' - ⟨hcfg, hadds⟩
      exact ⟨by simp [hcfg], by simpa using hadds⟩
  exact keeps.2

theorem Next.txlog_eq {o : Owner} {s s' : State} (h : Next o s s') : s'.txlog = s.txlog := by
  cases h with
  | goTo _ _ _ _ _ _ h => simp [h]
  | raise _ _ _ h => simp [h]
  | finish _ _ _ h => simp [h]

theorem Started.addsCommands {s s' : State} (h : Started s s') : AddsCommands s.cfg s.txlog s'.txlog := by
  cases h with
  | completed _ _ h => exact .of_eq (by simp [h])
  | aborted _ _ h => exact .of_eq (by simp [h])
  | ran s₀ _ _ hn h =>
    have hcfg : s₀.cfg = s.cfg := hn.cfg_eq
    have htx : s₀.txlog = s.txlog := hn.txlog_eq
    rw [h, ← hcfg, ← htx]
    exact seqFinish_addsCommands s₀

theorem seqTurn_addsCommands {s s' : State} (h : seqTurn s = .next s') : AddsCommands s.cfg s.txlog s'.txlog := by
  obtain ⟨-, started | rfl⟩ | ⟨-, rfl⟩ | ⟨r, k, -, rfl⟩ | ⟨-, rfl⟩ := seqTurn_cases h
  · exact started.addsCommands
  · exact .of_eq (by simp)
  · exact seqFinish_addsCommands s
  · simpa using seqFinish_addsCommands (resume r k s)
  · exact seqFinish_addsCommands s

@[simp] theorem rxAppend_txlog (b : Byte) (s : State) : (rxAppend b s).txlog = s.txlog := by
  obtain ⟨-, h⟩ | ⟨_, _, -, -, -, h⟩ | ⟨_, -, -, h⟩ := rxAppend_cases b s <;> rw [h]

@[simp] theorem timeTick_txlog (s : State) : (timeTick s).txlog = s.txlog := by
  unfold timeTick
  split
  · exact poll_txlog _ _ _ _
  all_goals rfl

theorem hostIssue_txlog {w : BitVec 32} {d : List Byte} {m : List (Addr × Byte)} {s s' : State}
    (h : hostIssue w d m s = .next s') : s'.txlog = s.txlog := by
  obtain ⟨-, -, rfl⟩ := hostIssue_cases h
  simp

/-- One case per agent: SEQ alone sends; reset, which clears TXLOG, is set apart. -/
theorem takeTurn_addsCommands {t : Turn} {s s' : State} (hreset : t ≠ .reset) (h : takeTurn t s = .next s') :
    AddsCommands s.cfg s.txlog s'.txlog := by
  cases t with
  | issue w d m => exact .of_eq (hostIssue_txlog h)
  | seq => exact seqTurn_addsCommands h
  | rx b => cases h; exact .of_eq (rxAppend_txlog b s)
  | tick => cases h; exact .of_eq (timeTick_txlog s)
  | reset => exact absurd rfl hreset

theorem defaultTurn_ne_reset (s : State) : defaultTurn s ≠ .reset := by
  unfold defaultTurn
  split <;> nofun

/-- Settles O54: a step is one agent's turn, and of these only SEQ's writes TXLOG, by calling a wire command. -/
theorem onlyTheThreeCommandsAreSent : Obligations.OnlyTheThreeCommandsAreSent := by
  intro s s' h noReset
  obtain ⟨-, he⟩ | ⟨t, ts, ht, he⟩ := step_turn s (step_wf h)
  · exact takeTurn_addsCommands (defaultTurn_ne_reset s) (he.symm.trans h)
  · have ne : t ≠ .reset := fun hr => noReset ts (hr ▸ ht)
    exact takeTurn_addsCommands (s := { s with turns := ts }) ne (he.symm.trans h)

end Sys2Proof.Machine
end

section
/-! The frame codec (40_frame_codec.md): the round-trip laws (R85), where the delimiter and the escape byte stand (R80), the
lengths (R81), and the two host operations (R87, R88). -/

namespace Sys2Proof.Machine

/-! ### Round trip (R85) -/

theorem encodeFrame_eq_cons (cfg : Config) (p : List Byte) :
    encodeFrame cfg p = cfg.flag :: (p.flatMap (escByte cfg) ++ [cfg.flag]) := rfl

@[simp] theorem decodeFrame_flag_cons (cfg : Config) (r : List Byte) :
    decodeFrame cfg (cfg.flag :: r) = decodeBody cfg r := by
  simp [decodeFrame]

/-- Only what opens with `FLAG` is decoded at all. -/
theorem exists_body_of_decodeFrame_ok {cfg : Config} {f p : List Byte} (h : decodeFrame cfg f = .ok p) :
    ∃ r, f = cfg.flag :: r ∧ decodeBody cfg r = .ok p := by
  cases f with
  | nil => cases h
  | cons b r =>
    by_cases hb : b = cfg.flag
    · subst hb
      exact ⟨r, rfl, by simpa using h⟩
    · simp [decodeFrame, hb] at h

theorem decodeFrame_encodeFrame {cfg : Config} (h : CodecConditions cfg) (p : List Byte) :
    decodeFrame cfg (encodeFrame cfg p) = .ok p := by
  rw [encodeFrame_eq_cons, decodeFrame_flag_cons, decodeBody_escaped_append h, ScanEnd.closed.decodeBody_eq h, map_ok,
    List.append_nil]

/-- The scan succeeds at the closing delimiter alone, so an input that decodes is its escaped payload and that delimiter. -/
theorem eq_encodeFrame_of_decodeFrame {cfg : Config} (h : CodecConditions cfg) {f p : List Byte}
    (hf : decodeFrame cfg f = .ok p) : f = encodeFrame cfg p := by
  obtain ⟨body, rfl, hbody⟩ := exists_body_of_decodeFrame_ok hf
  obtain ⟨q, r, v, rfl, hend, hv⟩ := decodeBody_cases h body
  rw [hbody] at hv
  cases hend with
  | closed =>
    rw [map_ok, List.append_nil, Except.ok.injEq] at hv
    rw [hv, encodeFrame_eq_cons]
  | empty | loneEsc | escapeFlag | badEscape | trailing | rawSpecial => cases hv

theorem encodeFrame_injective {cfg : Config} (h : CodecConditions cfg) : Function.Injective (encodeFrame cfg) := by
  intro p p' he
  have hp := decodeFrame_encodeFrame h p
  rw [he, decodeFrame_encodeFrame h p'] at hp
  exact (Except.ok.inj hp).symm

/-- Settles O5: the decoder passes over an escaped payload and can succeed only at its closing delimiter; injectivity follows
from decoding both frames. -/
theorem frameRoundTripLaws : Obligations.FrameRoundTripLaws := by
  intro cfg hwf
  have h := codecConditions hwf
  exact ⟨decodeFrame_encodeFrame h, fun _ _ => eq_encodeFrame_of_decodeFrame h, fun _ _ he => encodeFrame_injective h he⟩

/-! ### Positions of `FLAG` and `ESC` (R80) -/

/-- The escape of a byte never contains `FLAG`: this is R10 (a), (b) and (d). -/
theorem flag_notMem_escByte {cfg : Config} (h : CodecConditions cfg) (b : Byte) : cfg.flag ∉ escByte cfg b := by
  by_cases hb : b ∈ cfg.escset
  · simp [escByte_special hb, h.flag_ne_esc, (h.xor_ne_flag b hb).symm]
  · have hne : cfg.flag ≠ b := fun e => hb (e ▸ h.flag_mem)
    simp [escByte_plain hb, hne]

theorem flag_notMem_escaped {cfg : Config} (h : CodecConditions cfg) (p : List Byte) :
    cfg.flag ∉ p.flatMap (escByte cfg) := by
  simp [List.mem_flatMap, flag_notMem_escByte h]

/-- A last element that occurs nowhere before stands at the last index only. -/
theorem getElem?_append_singleton_eq_some_iff {l : List Byte} {x : Byte} (hx : x ∉ l) (i : Nat) :
    (l ++ [x])[i]? = some x ↔ i + 1 = (l ++ [x]).length := by
  rw [List.length_append, List.length_singleton, Nat.add_right_cancel_iff]
  constructor
  · intro hi
    have hle : ¬ i < l.length := fun hlt => hx (List.mem_of_getElem? (List.getElem?_append_left hlt ▸ hi))
    obtain ⟨hlt, -⟩ := List.getElem?_eq_some_iff.mp hi
    rw [List.length_append, List.length_singleton] at hlt
    omega
  · rintro rfl
    exact List.getElem?_concat_length

theorem encodeFrame_getElem?_eq_flag_iff {cfg : Config} (h : CodecConditions cfg) (p : List Byte) (i : Nat) :
    (encodeFrame cfg p)[i]? = some cfg.flag ↔ i = 0 ∨ i + 1 = (encodeFrame cfg p).length := by
  cases i with
  | zero => simp [encodeFrame_eq_cons]
  | succ i =>
    rw [encodeFrame_eq_cons, List.getElem?_cons_succ, List.length_cons,
      getElem?_append_singleton_eq_some_iff (flag_notMem_escaped h p)]
    omega

theorem wireForm_getElem?_eq_flag_iff {cfg : Config} (h : CodecConditions cfg) (hd : cfg.dropFirst = true) (p : List Byte)
    (i : Nat) : (wireForm cfg p)[i]? = some cfg.flag ↔ i + 1 = (wireForm cfg p).length := by
  rw [wireForm_dropFirst hd]
  exact getElem?_append_singleton_eq_some_iff (flag_notMem_escaped h p) i

/-- In an escaped payload and its closing delimiter, an `ESC` opens the pair of a special byte of the payload: neither a plain
byte nor the second byte of a pair is `ESC`. -/
theorem escape_pair_of_getElem?_eq_esc {cfg : Config} (h : CodecConditions cfg) (p : List Byte) (i : Nat)
    (hi : (p.flatMap (escByte cfg) ++ [cfg.flag])[i]? = some cfg.esc) :
    ∃ b ∈ p, b ∈ cfg.escset ∧ (p.flatMap (escByte cfg) ++ [cfg.flag])[i + 1]? = some (b ^^^ cfg.xmask) := by
  induction p generalizing i with
  | nil =>
    have he : cfg.esc = cfg.flag := by simpa using List.mem_of_getElem? hi
    exact absurd he.symm h.flag_ne_esc
  | cons b p ih =>
    by_cases hb : b ∈ cfg.escset
    · simp only [List.flatMap_cons, escByte_special hb, List.cons_append, List.nil_append] at hi ⊢
      match i with
      | 0 => exact ⟨b, List.mem_cons_self, hb, rfl⟩
      | 1 =>
        have he : b ^^^ cfg.xmask = cfg.esc := by simpa using hi
        exact absurd (he ▸ h.esc_mem) (h.xor_not_mem b hb)
      | i + 2 =>
        obtain ⟨c, hc, hpair⟩ := ih i hi
        exact ⟨c, List.mem_cons_of_mem b hc, hpair⟩
    · simp only [List.flatMap_cons, escByte_plain hb, List.cons_append, List.nil_append] at hi ⊢
      match i with
      | 0 =>
        have he : b = cfg.esc := by simpa using hi
        exact absurd (he ▸ h.esc_mem) hb
      | i + 1 =>
        obtain ⟨c, hc, hpair⟩ := ih i hi
        exact ⟨c, List.mem_cons_of_mem b hc, hpair⟩

/-- Settles O6: the escaped payload holds no `FLAG`, and its `ESC` bytes open escape pairs; the opening delimiter is no
`ESC`. -/
theorem frameDelimiterPositions : Obligations.FrameDelimiterPositions := by
  intro cfg p hwf
  have h := codecConditions hwf
  refine ⟨encodeFrame_getElem?_eq_flag_iff h p, fun hd => wireForm_getElem?_eq_flag_iff h hd p, fun i hi => ?_⟩
  cases i with
  | zero => exact absurd (Option.some.inj hi) h.flag_ne_esc
  | succ i => exact escape_pair_of_getElem?_eq_esc h p i hi

/-! ### Lengths (R81) -/

/-- A special byte takes two bytes, any other one. -/
theorem escaped_length (cfg : Config) (p : List Byte) :
    (p.flatMap (escByte cfg)).length = p.length + p.countP (fun b => decide (b ∈ cfg.escset)) := by
  induction p with
  | nil => rfl
  | cons b p ih =>
    rw [List.flatMap_cons, List.length_append, ih, List.length_cons]
    by_cases hb : b ∈ cfg.escset
    · rw [escByte_special hb, List.countP_cons_of_pos (by simpa using hb)]
      simp only [List.length_cons, List.length_nil]
      omega
    · rw [escByte_plain hb, List.countP_cons_of_neg (by simpa using hb)]
      simp only [List.length_cons, List.length_nil]
      omega

theorem encodeFrame_length (cfg : Config) (p : List Byte) :
    (encodeFrame cfg p).length = p.length + 2 + p.countP (fun b => decide (b ∈ cfg.escset)) := by
  simp only [encodeFrame_eq_cons, List.length_cons, List.length_append, List.length_nil, escaped_length]
  omega

/-- Dropping the first byte shortens a frame by one. -/
theorem wireForm_length_add_one {cfg : Config} (hd : cfg.dropFirst = true) (p : List Byte) :
    (wireForm cfg p).length + 1 = (encodeFrame cfg p).length := by
  simp [wireForm_dropFirst hd, encodeFrame_eq_cons]

/-- The frame of a command whose command byte and length byte need no escape: each operand byte takes one byte or two. -/
theorem encodeFrame_length_bounds {cfg : Config} {c l : Byte} (hc : c ∉ cfg.escset) (hl : l ∉ cfg.escset) (q : List Byte) :
    q.length + 4 ≤ (encodeFrame cfg (c :: l :: q)).length ∧ (encodeFrame cfg (c :: l :: q)).length ≤ 2 * q.length + 4 := by
  have hq : q.countP (fun b => decide (b ∈ cfg.escset)) ≤ q.length := List.countP_le_length
  rw [encodeFrame_length, List.countP_cons_of_neg (by simpa using hc), List.countP_cons_of_neg (by simpa using hl)]
  simp only [List.length_cons]
  omega

/-- The upper bound is reached where every operand byte is special. -/
theorem encodeFrame_length_of_special {cfg : Config} {c l : Byte} (hc : c ∉ cfg.escset) (hl : l ∉ cfg.escset)
    {q : List Byte} (hq : ∀ b ∈ q, b ∈ cfg.escset) : (encodeFrame cfg (c :: l :: q)).length = 2 * q.length + 4 := by
  have hcount : q.countP (fun b => decide (b ∈ cfg.escset)) = q.length := List.countP_eq_length.mpr (by simpa using hq)
  rw [encodeFrame_length, List.countP_cons_of_neg (by simpa using hc), List.countP_cons_of_neg (by simpa using hl), hcount]
  simp only [List.length_cons]
  omega

/-- A whole block is sent as it is, under both padding policies (R107). -/
theorem writeBytes_of_length_block (cfg : Config) (a : Addr) {d : List Byte} (h : d.length = Config.block) :
    Claims.writeBytes cfg a d = 0x04 :: 0x44 :: addrHi a :: addrLo a :: d := by
  cases hpol : cfg.ragged <;> simp [Claims.writeBytes, pad, hpol, h]

theorem default_read_frame_bounds (a : Addr) :
    6 ≤ (encodeFrame Config.default (Claims.readBytes a)).length ∧
    (encodeFrame Config.default (Claims.readBytes a)).length ≤ 8 :=
  encodeFrame_length_bounds (by decide) (by decide) [addrHi a, addrLo a]

theorem default_crc_frame_length : (encodeFrame Config.default [0x03, 0x02]).length = 4 := by decide

theorem default_write_frame_bounds (a : Addr) {d : List Byte} (hd : d.length = 64) :
    70 ≤ (encodeFrame Config.default (Claims.writeBytes Config.default a d)).length ∧
    (encodeFrame Config.default (Claims.writeBytes Config.default a d)).length ≤ 136 := by
  rw [writeBytes_of_length_block Config.default a hd]
  have bounds := encodeFrame_length_bounds (cfg := Config.default) (c := 0x04) (l := 0x44) (by decide) (by decide)
    (addrHi a :: addrLo a :: d)
  simpa [hd] using bounds

/-- The longest frame of a command is that of a WRITE. -/
theorem default_cmd_frame_le (c : Cmd) (hc : ∀ a d, c = .write a d → d.length = 64) :
    (encodeFrame Config.default (cmdBytes Config.default c)).length ≤ 136 := by
  cases c with
  | read a => exact (default_read_frame_bounds a).2.trans (by decide)
  | crc => exact default_crc_frame_length.trans_le (by decide)
  | write a d => exact (default_write_frame_bounds a (hc a d rfl)).2

/-- A WRITE of 64 escape bytes to an address of two escape bytes. -/
theorem default_write_frame_longest :
    (encodeFrame Config.default (Claims.writeBytes Config.default 0x7D7D (List.replicate 64 0x7D))).length = 136 := by
  have bytes : Claims.writeBytes Config.default 0x7D7D (List.replicate 64 0x7D) =
      0x04 :: 0x44 :: List.replicate 66 0x7D :=
    writeBytes_of_length_block _ _ List.length_replicate
  have special : ∀ b ∈ List.replicate 66 (0x7D : Byte), b ∈ Config.default.escset := by
    intro b hb
    rw [List.eq_of_mem_replicate hb]
    decide
  rw [bytes, encodeFrame_length_of_special (by decide) (by decide) special, List.length_replicate]

/-- Settles O7: the frame's length counts the escaped bytes; under the defaults no command or length byte is escaped, so the
operand bytes alone decide between the bounds. -/
theorem frameLengths : Obligations.FrameLengths := by
  have wire (p : List Byte) := wireForm_length_add_one (cfg := Config.default) rfl p
  refine ⟨fun cfg p => ⟨encodeFrame_length cfg p, fun hd => ?_⟩, fun a => ?_, by decide, fun a d hd => ?_,
    default_cmd_frame_le, _, _, List.length_replicate, default_write_frame_longest⟩
  · have hlen := wireForm_length_add_one hd p
    rw [encodeFrame_length] at hlen
    omega
  · have bounds := default_read_frame_bounds a
    have hlen := wire (Claims.readBytes a)
    omega
  · have bounds := default_write_frame_bounds a hd
    have hlen := wire (Claims.writeBytes Config.default a d)
    omega

/-! ### ENCODE and DECODE (R87, R88) -/

theorem exec_encode (addr : Addr) (s : State) :
    exec (.encode addr) s = .next (complete .ok (encodeFrame s.cfg s.hdata) s) := rfl

theorem exec_decode_of_ok (addr : Addr) {s : State} {p : List Byte} (h : decodeFrame s.cfg s.hdata = .ok p) :
    exec (.decode addr) s = .next (complete .ok p s) := by
  simp [exec, execDecode, h]

theorem exec_decode_of_error (addr : Addr) {s : State} {x : DecodeReason} (h : decodeFrame s.cfg s.hdata = .error x) :
    exec (.decode addr) s = .next (abort (.decodeError x) .primitive s) := by
  simp [exec, execDecode, h]

/-- Success as one update: the outcome OK is the word 0 (R138). -/
theorem complete_ok_eq (out : List Byte) (s : State) :
    complete .ok out s = { s with rdata := out, result := 0, busy := false, done := true, phase := .idle } := rfl

/-- R83's table is the model's. -/
theorem code_eq_reasonCode (x : DecodeReason) : x.code = Claims.reasonCode x := by
  cases x <;> rfl

/-- The abort of a primitive operation outside a session writes the host-facing registers and SEQ's control point alone. -/
theorem abort_primitive_eq {s : State} (hs : s.session = none) (e : Err) :
    abort e .primitive s =
      { s with rdata := [], result := e.word, busy := false, done := true, phase := .idle } := by
  simp [abort_eq, failureEvents, hs]

/-- Settles O10: ENCODE is one completion with OK, whose output is the frame. -/
theorem encodeReturnsFrame : Obligations.EncodeReturnsFrame := by
  intro addr s
  rw [exec_encode, complete_ok_eq]
  rfl

/-- Settles O11: DECODE completes with the payload, or is aborted outside a session with the decoder's reason. -/
theorem decodeReturnsPayloadOrReason : Obligations.DecodeReturnsPayloadOrReason := by
  intro addr s hs
  refine ⟨fun p hp => ?_, fun x hx => ?_⟩
  · rw [exec_decode_of_ok addr hp, complete_ok_eq]
  · rw [exec_decode_of_error addr hx, abort_primitive_eq hs, Err.word, code_eq_reasonCode]

end Sys2Proof.Machine
end

section
/-! The response buffer and time (41_response_buffer.md R90 to R94, R102): what a take removes, what RXA's turn does where
there is no session, room in the buffer or none, and TIME's turn outside a wait. -/

namespace Sys2Proof.Machine

/-! ### RXA's turn -/

theorem setRxq_of_session {s : State} {q : Session} (h : s.session = some q) (bs : List Byte) :
    s.setRxq bs = { s with session := some { q with rxq := bs } } := by
  simp [State.setRxq, h]

theorem rxAppend_of_no_session (b : Byte) {s : State} (h : s.session = none) : rxAppend b s = s := by
  simp [rxAppend, h]

theorem rxAppend_of_full (b : Byte) {s : State} {q : Session} {cap : Nat} (hs : s.session = some q)
    (hc : s.cfg.rxCapacity = some cap) (hfull : cap ≤ q.rxq.length) : rxAppend b s = { s with fault := true } := by
  simp [rxAppend, hs, hc, hfull]

/-- An unbounded buffer has room always. -/
theorem rxAppend_of_room (b : Byte) {s : State} {q : Session} (hs : s.session = some q)
    (hroom : ∀ cap, s.cfg.rxCapacity = some cap → q.rxq.length < cap) :
    rxAppend b s = { s with session := some { q with rxq := q.rxq ++ [b] } } := by
  rw [← setRxq_of_session hs]
  cases hc : s.cfg.rxCapacity with
  | none => simp [rxAppend, hs, hc]
  | some cap => simp [rxAppend, hs, hc, Nat.not_le.mpr (hroom cap hc)]

theorem step_rx {s : State} {b : Byte} {ts : List Turn} (hwf : s.cfg.wf = true) (ht : s.turns = .rx b :: ts) :
    step s = .next (rxAppend b { s with turns := ts }) :=
  step_cons hwf ht

/-! ### TIME's turn -/

theorem timeTick_of_not_wait {s : State} (h : ∀ n t k, s.phase ≠ .wait n t k) : timeTick s = s := by
  unfold timeTick
  cases hp : s.phase with
  | idle => rfl
  | run p => rfl
  | wait n t k => exact absurd hp (h n t k)

theorem step_tick {s : State} {ts : List Turn} (hwf : s.cfg.wf = true) (ht : s.turns = .tick :: ts) :
    step s = .next (timeTick { s with turns := ts }) :=
  step_cons hwf ht

/-! ### The obligations -/

/-- Settles O27: in a wait, the three outcomes of the tick's poll, in the order of its tests; elsewhere TIME's turn
changes nothing but the agenda. -/
theorem tickPollsOnce : Obligations.TickPollsOnce := by
  intro s ts hwf ht
  refine ⟨fun n t k q hp hs => ⟨fun enough => ?_, fun short late => ?_, fun short early => ?_⟩, fun notWaiting => ?_⟩
  · exact step_tick_ok s q n t k ts hwf hp hs enough ht
  · exact step_tick_timedOut s q n t k ts hwf hp hs short late ht
  · exact step_tick_wait s q n t k ts hwf hp hs short early ht
  · exact (step_tick hwf ht).trans (congrArg _ (timeTick_of_not_wait notWaiting))

/-- Settles O26: a take that succeeds found at least `n` bytes and cut the buffer after the first `n`. -/
theorem takeRemovesExactlyTheOldest : Obligations.TakeRemovesExactlyTheOldest := by
  intro n q r rest h
  obtain ⟨enough, rfl, rfl⟩ := takeBytes_eq_some h
  exact ⟨List.length_take_of_le enough, List.take_append_drop n q⟩

/-- Settles O30: an unbounded buffer has room for every byte, and without a session RXA's turn changes nothing. -/
theorem arrivingByteIsAppendedOrDiscarded : Obligations.ArrivingByteIsAppendedOrDiscarded := by
  intro s b ts hwf ht
  refine ⟨fun q unbounded hs => ?_, fun hs => ?_⟩
  · exact (step_rx hwf ht).trans (congrArg _ (rxAppend_of_room b hs (by simp [unbounded])))
  · exact (step_rx hwf ht).trans (congrArg _ (rxAppend_of_no_session b hs))

/-- Settles O31: a buffer at its capacity is full, and one below its capacity has room. -/
theorem fullBufferSetsFault : Obligations.FullBufferSetsFault := by
  intro s b ts q cap hwf hc hs ht
  refine ⟨fun full => ?_, fun below => ?_⟩
  · exact (step_rx hwf ht).trans (congrArg _ (rxAppend_of_full b hs hc full.ge))
  · exact (step_rx hwf ht).trans (congrArg _ (rxAppend_of_room b hs (by simpa [hc] using below)))

end Sys2Proof.Machine
end

section
/-! The image model (43_image_model.md): a region's bytes, where one is missing, and a region inside another (R116); when
`Load` gives its three regions and when it fails (R117); the sizes of a well-formed map's regions (R120). -/

namespace Sys2Proof.Machine

/-! ### Regions -/

/-- A region by its bytes, for every pair of bounds: reversed ones give the empty list. -/
theorem region_eq_some_iff {m : Memory} {s e : Addr} {out : List Byte} :
    region m s e = some out ↔
      out.length = e.toNat + 1 - s.toNat ∧ ∀ k, k < out.length → out[k]? = Memory.read m (s.toNat + k) :=
  readRun_eq_some m _ _ out

theorem region_eq_none_iff {m : Memory} {s e : Addr} :
    region m s e = none ↔ ∃ a, s.toNat ≤ a ∧ a ≤ e.toNat ∧ Memory.read m a = none := by
  rw [region, readRun_eq_none]
  constructor
  · rintro ⟨k, hk, missing⟩
    exact ⟨s.toNat + k, by omega, by omega, missing⟩
  · rintro ⟨a, hs, he, missing⟩
    exact ⟨a - s.toNat, by omega, by rwa [Nat.add_sub_cancel' hs]⟩

theorem region_length {m : Memory} {s e : Addr} {out : List Byte} (h : region m s e = some out) :
    out.length = e.toNat + 1 - s.toNat :=
  (region_eq_some_iff.mp h).1

theorem region_getElem? {m : Memory} {s e : Addr} {out : List Byte} (h : region m s e = some out) {k : Nat}
    (hk : k < e.toNat + 1 - s.toNat) : out[k]? = Memory.read m (s.toNat + k) :=
  (region_eq_some_iff.mp h).2 k (by rwa [region_length h])

/-- A region inside another one is a slice of it: at each index both read the same address. -/
theorem region_eq_slice {m : Memory} {s e s' e' : Addr} {out out' : List Byte} (outer : region m s e = some out)
    (inner : region m s' e' = some out') (hs : s.toNat ≤ s'.toNat) (he : e'.toNat ≤ e.toNat) :
    out' = (out.drop (s'.toNat - s.toNat)).take (e'.toNat + 1 - s'.toNat) := by
  apply List.ext_getElem?
  intro k
  by_cases hk : k < e'.toNat + 1 - s'.toNat
  · have address : s.toNat + (s'.toNat - s.toNat + k) = s'.toNat + k := by omega
    rw [List.getElem?_take_of_lt hk, List.getElem?_drop, region_getElem? inner hk, region_getElem? outer (by omega), address]
  · have beyond : e'.toNat + 1 - s'.toNat ≤ k := Nat.le_of_not_lt hk
    rw [List.getElem?_take_eq_none beyond, List.getElem?_eq_none (by rwa [region_length inner])]

/-! ### Load -/

theorem load_eq_some_iff {map : MemMap} {m : Memory} {img : Image} :
    load map m = some img ↔
      region m map.appStart map.appEnd = some img.app ∧ region m map.crcStart map.crcEnd = some img.crct ∧
      region m map.nvmStart map.nvmEnd = some img.nvm := by
  refine ⟨load_eq_some, ?_⟩
  rintro ⟨app, crct, nvm⟩
  simp [load, app, crct, nvm]

theorem load_eq_none_iff {map : MemMap} {m : Memory} :
    load map m = none ↔
      region m map.appStart map.appEnd = none ∨ region m map.crcStart map.crcEnd = none ∨
      region m map.nvmStart map.nvmEnd = none := by
  cases app : region m map.appStart map.appEnd with
  | none => simp [load, app]
  | some a =>
    cases crct : region m map.crcStart map.crcEnd with
    | none => simp [load, app, crct]
    | some c => cases nvm : region m map.nvmStart map.nvmEnd <;> simp [load, app, crct, nvm]

/-- The image loaded under a well-formed map has its regions' sizes, and its table is one block (R45 (d)). -/
theorem load_fits {map : MemMap} {m : Memory} {img : Image} (hwf : map.wf = true) (h : load map m = some img) :
    img.fits map := by
  obtain ⟨app, crct, nvm⟩ := load_eq_some h
  obtain ⟨-, -, -, -, -, oneBlock⟩ := map_bounds hwf
  refine ⟨region_length app, ?_, region_length nvm⟩
  rw [region_length crct, oneBlock, Nat.add_sub_cancel_left, Config.block]

theorem startCheckCrc_of_block {t : List Byte} (h : t.length = Config.block) (u : CrcUser) (s : State) :
    startCheckCrc t u s = goTo (.write s.cfg.map.crcStart t) (.crcTable u) s :=
  if_pos h

/-! ### The obligations -/

/-- Settles O34: a region is its run of bytes from the first address on; the bounds are ordered, so the run has one byte
more than their difference. -/
theorem regionIsItsBytes : Obligations.RegionIsItsBytes := by
  intro m s e hle
  refine ⟨fun out => ?_, region_eq_none_iff⟩
  have size : e.toNat + 1 - s.toNat = e.toNat - s.toNat + 1 := Nat.sub_add_comm hle
  rw [region_eq_some_iff, size]

/-- Settles O35: `Load` region by region; the sizes are those of `Image.fits`, and a table of one block passes the size test
of `CheckCrc`. -/
theorem loadedRegionsAndSizes : Obligations.LoadedRegionsAndSizes := by
  intro map m
  refine ⟨fun img => load_eq_some_iff, ?_, fun img hwf h => ?_⟩
  · simp only [load_eq_none_iff, region_eq_none_iff, ← exists_or]
    exact exists_congr fun a => by tauto
  · obtain ⟨app, crct, nvm⟩ := load_fits hwf h
    obtain ⟨appOrder, -, nvmOrder, -, -, oneBlock⟩ := map_bounds hwf
    rw [Config.block] at crct
    refine ⟨by omega, by omega, crct, by omega, fun u s => ?_⟩
    rw [startCheckCrc_of_block crct, goTo_phase]

/-- Settles O36: the settings region lies inside the application region (R45 (b)). -/
theorem settingsAreASlice : Obligations.SettingsAreASlice := by
  intro map m img hwf h
  obtain ⟨app, -, nvm⟩ := load_eq_some h
  obtain ⟨-, -, -, nvmAbove, nvmBelow, -⟩ := map_bounds hwf
  exact region_eq_slice app nvm nvmAbove nvmBelow

end Sys2Proof.Machine
end

section
/-! The RESULT register (10_state.md R22, 60_exceptions.md R138 to R140): each field of a packed word reads back what was
packed into it, and the word of every outcome is a packed word. -/

namespace Sys2Proof.Machine

/-! ### The fields of a packed word -/

section
variable (code : BitVec 4) (tmo sv : Bool) (info : Byte) (addr : Addr)

@[simp] theorem resultCode_packResult : resultCode (packResult code tmo sv info addr) = code :=
  BitVec.extractLsb'_append_eq_right

@[simp] theorem resultTO_packResult : resultTO (packResult code tmo sv info addr) = tmo := by
  simp only [resultTO, packResult, BitVec.getLsbD_append]
  simp

@[simp] theorem resultSV_packResult : resultSV (packResult code tmo sv info addr) = sv := by
  simp only [resultSV, packResult, BitVec.getLsbD_append]
  simp

/-- Above CODE, TO and SV stand the reserved bits, INFO and ADDR (R22). -/
theorem extractLsb'_packResult_above_flags (start len : Nat) :
    (packResult code tmo sv info addr).extractLsb' (start + 6) len =
      (addr ++ info ++ (0 : BitVec 2)).extractLsb' start len := by
  rw [packResult, BitVec.extractLsb'_append_eq_of_le (by omega), BitVec.extractLsb'_append_eq_of_le (by omega),
    BitVec.extractLsb'_append_eq_of_le (by omega)]
  rfl

theorem reserved_packResult : (packResult code tmo sv info addr).extractLsb' 6 2 = 0 :=
  (extractLsb'_packResult_above_flags code tmo sv info addr 0 2).trans BitVec.extractLsb'_append_eq_right

@[simp] theorem resultInfo_packResult : resultInfo (packResult code tmo sv info addr) = info :=
  calc resultInfo (packResult code tmo sv info addr)
    _ = (addr ++ info ++ (0 : BitVec 2)).extractLsb' 2 8 := extractLsb'_packResult_above_flags code tmo sv info addr 2 8
    _ = (addr ++ info).extractLsb' 0 8 := BitVec.extractLsb'_append_eq_of_le (by decide)
    _ = info := BitVec.extractLsb'_append_eq_right

@[simp] theorem resultAddr_packResult : resultAddr (packResult code tmo sv info addr) = addr :=
  calc resultAddr (packResult code tmo sv info addr)
    _ = (addr ++ info ++ (0 : BitVec 2)).extractLsb' 10 16 := extractLsb'_packResult_above_flags code tmo sv info addr 10 16
    _ = (addr ++ info).extractLsb' 8 16 := BitVec.extractLsb'_append_eq_of_le (by decide)
    _ = addr := BitVec.extractLsb'_append_eq_left

theorem packResult_fields :
    resultCode (packResult code tmo sv info addr) = code ∧ resultTO (packResult code tmo sv info addr) = tmo ∧
    resultSV (packResult code tmo sv info addr) = sv ∧ resultInfo (packResult code tmo sv info addr) = info ∧
    resultAddr (packResult code tmo sv info addr) = addr := by
  simp

/-- The word of an error for which R138 records nothing but the code. -/
theorem packResult_code_only :
    resultCode (packResult code false false 0 0) = code ∧ (packResult code false false 0 0).extractLsb' 4 28 = 0 :=
  ⟨resultCode_packResult .., BitVec.extractLsb'_append_eq_left⟩

end

/-! ### The words of the outcomes -/

@[simp] theorem packCause_timedOut (code : BitVec 4) (addr : Addr) :
    packCause code .timedOut addr = packResult code true false 0 addr := rfl

@[simp] theorem packCause_status (code : BitVec 4) (st : Byte) (addr : Addr) :
    packCause code (.status st) addr = packResult code false true st addr := rfl

theorem reserved_packCause (code : BitVec 4) (why : Cause) (addr : Addr) :
    (packCause code why addr).extractLsb' 6 2 = 0 := by
  cases why <;> exact reserved_packResult ..

theorem reserved_word (o : OpOutcome) : o.word.extractLsb' 6 2 = 0 := by
  cases o with
  | ok => exact reserved_packResult ..
  | err e =>
    cases e with
    | blockReadFailed _ _ | blockWriteFailed _ _ | crcCheckFailed _ => exact reserved_packCause ..
    | _ => exact reserved_packResult ..

/-- Settles O39: the word of every outcome is a packed word, and each field reads back what was packed. -/
theorem outcomeWordFields : Obligations.OutcomeWordFields := by
  refine ⟨rfl, reserved_word, ?codeOnly, ?exchange, fun a => packResult_fields 0x6 false false 0 a, ?decode⟩
  case codeOnly =>
    simp only [List.forall_mem_cons]
    exact ⟨packResult_code_only _, packResult_code_only _, packResult_code_only _, packResult_code_only _, by simp⟩
  case exchange =>
    intro a st
    simp [Err.word]
  case decode =>
    have fields (x : DecodeReason) := packResult_fields 0x9 false false x.code 0
    simp only [List.forall_mem_cons]
    exact ⟨fields .noOpenFlag, fields .unterminated, fields .escapeFlag, fields .badEscape, fields .trailingBytes,
      fields .rawSpecial, by simp⟩

end Sys2Proof.Machine
end

section
/-! Reset (70_reset_and_hazards.md R156): each register's value in the state after reset. -/

namespace Sys2Proof.Machine

/-- STATUS reads 0 where each of its three flags is clear (10_state.md R21). -/
theorem status_eq_zero {s : State} (hsess : s.session = none) (hdone : s.done = false) (hbusy : s.busy = false) :
    s.status = 0 := by
  simp [State.status, State.sess, hsess, hdone, hbusy]

/-- Settles O43: STATUS is 0 because reset clears each of its flags; the other registers hold their values by definition. -/
theorem resetValues : Obligations.ResetValues := by
  have status : State.reset.status = 0 := status_eq_zero rfl rfl rfl
  exact ⟨status, rfl, rfl, rfl, rfl, rfl, rfl, rfl⟩

end Sys2Proof.Machine
end

section
/-! Decoding and encoding (30_encoding.md): the fields of a HOSTOP word and of a wire command's address read back what was
put in, and the decoders accept codes alone. -/

namespace Sys2Proof.Machine

/-! ### The fields of a HOSTOP word (R69) -/

@[simp] theorem hostOpField_hostWord (addr : Addr) (op : BitVec 4) : hostOpField (hostWord addr op) = op :=
  BitVec.extractLsb'_append_eq_right

@[simp] theorem hostRsvField_hostWord (addr : Addr) (op : BitVec 4) : hostRsvField (hostWord addr op) = 0 :=
  calc hostRsvField (hostWord addr op)
    _ = (addr ++ (0 : BitVec 12)).extractLsb' 0 12 := BitVec.extractLsb'_append_eq_of_le (by decide)
    _ = 0 := BitVec.extractLsb'_append_eq_right

@[simp] theorem hostAddrField_hostWord (addr : Addr) (op : BitVec 4) : hostAddrField (hostWord addr op) = addr :=
  calc hostAddrField (hostWord addr op)
    _ = (addr ++ (0 : BitVec 12)).extractLsb' 12 16 := BitVec.extractLsb'_append_eq_of_le (by decide)
    _ = addr := BitVec.extractLsb'_append_eq_left

/-- A word is its three fields. -/
theorem hostFields_append (w : BitVec 32) : hostAddrField w ++ hostRsvField w ++ hostOpField w = w := by
  have low : hostRsvField w ++ hostOpField w = w.extractLsb' 0 16 :=
    BitVec.extractLsb'_append_extractLsb'_eq_extractLsb' (by decide)
  have whole : hostAddrField w ++ w.extractLsb' 0 16 = w := BitVec.extractLsb'_append_extractLsb'
  rw [← low] at whole
  rw [BitVec.append_assoc]
  exact whole

/-- A word with RSV = 0 is the word of its address and operation. -/
theorem hostWord_fields {w : BitVec 32} {op : BitVec 4} (hrsv : hostRsvField w = 0)
    (hop : (hostOpField w).toNat = op.toNat) : hostWord (hostAddrField w) op = w := by
  rw [hostWord, ← BitVec.eq_of_toNat_eq hop, ← hrsv]
  exact hostFields_append w

/-! ### The bytes of an address (R38) -/

@[simp] theorem addrOf_addrHi_addrLo (a : Addr) : addrOf (addrHi a) (addrLo a) = a :=
  BitVec.extractLsb'_append_extractLsb'

@[simp] theorem addrHi_addrOf (hi lo : Byte) : addrHi (addrOf hi lo) = hi :=
  BitVec.extractLsb'_append_eq_left

@[simp] theorem addrLo_addrOf (hi lo : Byte) : addrLo (addrOf hi lo) = lo :=
  BitVec.extractLsb'_append_eq_right

/-! ### The decoders, a code at a time -/

theorem decodeWire_read (pol : RaggedPolicy) (hi lo : Byte) :
    decodeWire pol [Config.readCmd, Config.readLen, hi, lo] = .ok (.read (addrOf hi lo)) := rfl

theorem decodeWire_crc (pol : RaggedPolicy) : decodeWire pol [Config.crcCmd, Config.crcLen] = .ok .crc := rfl

theorem decodeWire_write {pol : RaggedPolicy} {hi lo : Byte} {d : List Byte}
    (h : (Instr.write (addrOf hi lo) d).wf pol = true) :
    decodeWire pol (Config.writeCmd :: Config.writeLen :: hi :: lo :: d) = .ok (.write (addrOf hi lo) d) :=
  if_pos h

/-- A word that decodes is the code of its instruction. -/
theorem encode_of_decodeHost {w : BitVec 32} {i : Instr} (h : decodeHost w = .ok i) : encode i = .host w := by
  unfold decodeHost at h
  split at h
  · cases h
  next hrsv =>
    have rsv : hostRsvField w = 0 := by simpa using hrsv
    dsimp only at h
    split at h <;> cases h
    all_goals exact congrArg Code.host (hostWord_fields rsv ‹_›)

/-- HOSTOP words carry no size to check. -/
theorem wf_of_encode_eq_host {pol : RaggedPolicy} {i : Instr} {w : BitVec 32} (h : encode i = .host w) :
    i.wf pol = true := by
  cases i with
  | write a d => cases h
  | _ => rfl

/-- Bytes that decode are the code of their instruction, whose size passed the padding policy's test; one case for each
command byte. -/
theorem encode_wf_of_decodeWire {pol : RaggedPolicy} {p : List Byte} {i : Instr} (h : decodeWire pol p = .ok i) :
    encode i = .wire p ∧ i.wf pol = true := by
  cases p with
  | nil => cases h
  | cons c rest =>
    simp only [decodeWire] at h
    by_cases hread : c = Config.readCmd
    · rw [if_pos hread] at h
      split at h
      · split at h <;> cases h
        next hl => exact ⟨by simp [encode, hread, hl], rfl⟩
      · cases h
    rw [if_neg hread] at h
    by_cases hcrc : c = Config.crcCmd
    · rw [if_pos hcrc] at h
      split at h
      · split at h <;> cases h
        next hl => exact ⟨by simp [encode, hcrc, hl], rfl⟩
      · cases h
    rw [if_neg hcrc] at h
    by_cases hwrite : c = Config.writeCmd
    · rw [if_pos hwrite] at h
      split at h
      · split at h
        · next hl =>
          split at h <;> cases h
          next hwf => exact ⟨by simp [encode, hwrite, hl], hwf⟩
        · cases h
      · cases h
    · rw [if_neg hwrite] at h
      cases h

/-! ### The obligations -/

/-- Settles O2: the three wire commands by their formats, the seven operations by OP. -/
theorem decodeEncodeAgree : Obligations.DecodeEncodeAgree := by
  intro pol i hwf
  cases i with
  | read a => exact (decodeWire_read pol _ _).trans (by simp)
  | crc => exact decodeWire_crc pol
  | write a d => exact (decodeWire_write (by simpa using hwf)).trans (by simp)
  | encode addr | decode addr | readBlock addr | writeBlock addr | checkCrc addr | verify addr | flash addr =>
    simp [decode, encode, decodeHost]

/-- Settles O3: each decoder accepts codes alone. -/
theorem decodedCodesAreEncodings : Obligations.DecodedCodesAreEncodings := by
  intro pol c i h
  cases c with
  | host w =>
    have code : encode i = .host w := encode_of_decodeHost h
    exact ⟨code, wf_of_encode_eq_host code⟩
  | wire p => exact encode_wf_of_decodeWire h

/-- Settles O1: each code is the encoding of its row's instruction. -/
theorem tableWordsDecode : Obligations.TableWordsDecode :=
  ⟨decodeEncodeAgree .zeroPad (.read 0x8400) rfl, decodeEncodeAgree .zeroPad .crc rfl,
    decodeEncodeAgree .asIs (.write 0x8440 [0x7E, 0x11]) rfl, decodeEncodeAgree .zeroPad (.encode 0x8400) rfl,
    decodeEncodeAgree .zeroPad (.decode 0) rfl, decodeEncodeAgree .zeroPad (.readBlock 0x8400) rfl,
    decodeEncodeAgree .zeroPad (.writeBlock 0x8480) rfl, decodeEncodeAgree .zeroPad (.checkCrc 0) rfl,
    decodeEncodeAgree .zeroPad (.verify 0) rfl, decodeEncodeAgree .zeroPad (.flash 0xFFFF) rfl⟩

end Sys2Proof.Machine
end

section
/-! The frame codec's other laws (40_frame_codec.md section 2): a wire form with its delimiter put back decodes, and the
frames that give each decode reason (R82, R83). -/

namespace Sys2Proof.Machine

/-- Settles O8: dropping the first byte takes `FLAG` off the frame, and putting it back gives the frame again. -/
theorem wireFormDecodes : Obligations.WireFormDecodes := by
  intro cfg p hwf hdrop
  have frame : cfg.flag :: wireForm cfg p = encodeFrame cfg p := by rw [wireForm_dropFirst hdrop, encodeFrame_eq_cons]
  rw [frame, decodeFrame_encodeFrame (codecConditions hwf)]

/-! ### The frames of each reason (R82, R83) -/

/-- A frame that does not open with `FLAG`. -/
theorem decodeFrame_of_head_ne {cfg : Config} {f : List Byte} (h : f.head? ≠ some cfg.flag) :
    decodeFrame cfg f = .error .noOpenFlag := by
  cases f with
  | nil => rfl
  | cons b r => simp [decodeFrame, show b ≠ cfg.flag by simpa using h]

/-- What the scan answers is the answer at its end, whatever escaped payload stands before. -/
theorem decodeBody_error_iff {cfg : Config} (h : CodecConditions cfg) {f : List Byte} {x : DecodeReason} :
    decodeBody cfg f = .error x ↔ ∃ p r, f = Claims.escaped cfg p ++ r ∧ ScanEnd cfg r (.error x) := by
  constructor
  · intro hf
    obtain ⟨p, r, v, rfl, hend, hv⟩ := decodeBody_cases h f
    cases v with
    | ok q => rw [hf] at hv; cases hv
    | error y => rw [hf] at hv; cases hv; exact ⟨p, r, rfl, hend⟩
  · rintro ⟨p, r, rfl, hend⟩
    exact (decodeBody_escaped_append h p r).trans (by rw [hend.decodeBody_eq h, map_error])

/-- The scan never misses the opening delimiter: that is tested before it. -/
theorem ScanEnd.ne_noOpenFlag {cfg : Config} {r : List Byte} : ¬ ScanEnd cfg r (.error .noOpenFlag) := nofun

theorem decodeFrame_noOpenFlag_iff {cfg : Config} (h : CodecConditions cfg) {f : List Byte} :
    decodeFrame cfg f = .error .noOpenFlag ↔ f.head? ≠ some cfg.flag := by
  refine ⟨fun hf hhead => ?_, decodeFrame_of_head_ne⟩
  obtain ⟨r, rfl⟩ := List.head?_eq_some_iff.mp hhead
  rw [decodeFrame_flag_cons, decodeBody_error_iff h] at hf
  obtain ⟨p, r, -, hend⟩ := hf
  exact ScanEnd.ne_noOpenFlag hend

/-- Every other reason comes from the scan of what follows the opening delimiter. -/
theorem decodeFrame_error_iff {cfg : Config} (h : CodecConditions cfg) {f : List Byte} {x : DecodeReason}
    (hx : x ≠ .noOpenFlag) :
    decodeFrame cfg f = .error x ↔ ∃ p r, f = cfg.flag :: (Claims.escaped cfg p ++ r) ∧ ScanEnd cfg r (.error x) := by
  constructor
  · intro hf
    by_cases hhead : f.head? = some cfg.flag
    · obtain ⟨body, rfl⟩ := List.head?_eq_some_iff.mp hhead
      obtain ⟨p, r, rfl, hend⟩ := (decodeBody_error_iff h).mp (decodeFrame_flag_cons cfg body ▸ hf)
      exact ⟨p, r, rfl, hend⟩
    · rw [decodeFrame_of_head_ne hhead] at hf
      exact absurd (Except.error.inj hf).symm hx
  · rintro ⟨p, r, rfl, hend⟩
    rw [decodeFrame_flag_cons]
    exact (decodeBody_error_iff h).mpr ⟨p, r, rfl, hend⟩

/-- Settles O9: `noOpenFlag` is the test before the scan; each other reason has the ends of the scan that `ScanEnd` lists
for it. -/
theorem decodeReasonsCharacterised : Obligations.DecodeReasonsCharacterised := by
  intro cfg f hwf
  have h := codecConditions hwf
  have scan (x : DecodeReason) (hx : x ≠ .noOpenFlag) := decodeFrame_error_iff (f := f) h hx
  refine ⟨decodeFrame_noOpenFlag_iff h, (scan .unterminated nofun).trans ⟨?_, ?_⟩,
    (scan .escapeFlag nofun).trans ⟨?_, ?_⟩, (scan .badEscape nofun).trans ⟨?_, ?_⟩,
    (scan .trailingBytes nofun).trans ⟨?_, ?_⟩, (scan .rawSpecial nofun).trans ⟨?_, ?_⟩⟩
  · rintro ⟨p, r, rfl, hend⟩
    cases hend with
    | empty => exact ⟨p, .inl (by simp)⟩
    | loneEsc => exact ⟨p, .inr rfl⟩
  · rintro ⟨p, rfl | rfl⟩
    · exact ⟨p, [], by simp, .empty⟩
    · exact ⟨p, _, rfl, .loneEsc⟩
  · rintro ⟨p, r, rfl, hend⟩
    cases hend with
    | escapeFlag xs => exact ⟨p, xs, rfl⟩
  · rintro ⟨p, xs, rfl⟩
    exact ⟨p, _, rfl, .escapeFlag xs⟩
  · rintro ⟨p, r, rfl, hend⟩
    cases hend with
    | badEscape c xs hc hm => exact ⟨p, c, xs, rfl, hc, hm⟩
  · rintro ⟨p, c, xs, rfl, hc, hm⟩
    exact ⟨p, _, rfl, .badEscape c xs hc hm⟩
  · rintro ⟨p, r, rfl, hend⟩
    cases hend with
    | trailing x xs => exact ⟨p, x, xs, rfl⟩
  · rintro ⟨p, x, xs, rfl⟩
    exact ⟨p, _, rfl, .trailing x xs⟩
  · rintro ⟨p, r, rfl, hend⟩
    cases hend with
    | rawSpecial b xs hb hf he => exact ⟨p, b, xs, rfl, hb, hf, he⟩
  · rintro ⟨p, b, xs, rfl, hb, hf, he⟩
    exact ⟨p, _, rfl, .rawSpecial b xs hb hf he⟩

end Sys2Proof.Machine
end

section
/-! The wire commands at their `Send` (42_block_primitives.md R103 to R109) and the first step of each host operation that
uses them (R112 to R114, 44_orchestrator.md R131, R133). -/

namespace Sys2Proof.Machine

/-! ### A wire command at its `Send` -/

/-- The command given is the one that runs, whatever command SEQ stands at (log 12). -/
theorem exec_instr_of_call {c c' : Cmd} {k : Resume} {s : State} (h : s.phase = .run (.call c' k)) :
    exec c.instr s = .next (seqFinish (callCmd c k s)) := by
  cases c with
  | read a => exact exec_read_of_call h
  | crc => exact exec_crc_of_call h
  | write a d => exact exec_write_of_call h

theorem exec_instr_of_not_call {c : Cmd} {s : State} (h : ∀ c' k, s.phase ≠ .run (.call c' k)) :
    exec c.instr s = .fault .notAtCommand := by
  cases c with
  | read a => unfold Cmd.instr exec execRead; split <;> simp_all
  | crc => unfold Cmd.instr exec execCrc; split <;> simp_all
  | write a d => unfold Cmd.instr exec execWrite; split <;> simp_all

theorem callCmd_write_of_le {a : Addr} {d : List Byte} {k : Resume} {s : State} (h : d.length ≤ Config.block) :
    callCmd (.write a d) k s = exchange (.write a d) k s :=
  if_neg (Nat.not_lt.mpr h)

theorem callCmd_write_of_gt {a : Addr} {d : List Byte} {k : Resume} {s : State} (h : Config.block < d.length) :
    callCmd (.write a d) k s = raise .invalidBlockSize k.owner s :=
  if_pos h

section
variable {c : Cmd} {k : Resume} {s : State} {q : Session}

/-- An exchange whose response is not there yet waits. -/
theorem seqFinish_exchange_wait (hs : s.session = some q) (hT : 1 ≤ s.cfg.timeoutTicks) (short : q.rxq.length < respLen c) :
    seqFinish (exchange c k s) = { s with
      txlog := s.txlog ++ [wireForm s.cfg (cmdBytes s.cfg c)], phase := .wait (respLen c) 0 k } := by
  have hr : (send c s).rxq = q.rxq := rxq_of_session hs
  have ticks : 0 < (send c s).cfg.timeoutTicks := hT
  rw [exchange, poll_wait (hr ▸ short) ticks]
  exact seqFinish_wait rfl

/-- An exchange that finds its response in the buffer takes it. -/
theorem seqFinish_exchange_taken (hs : s.session = some q) (enough : respLen c ≤ q.rxq.length) :
    seqFinish (exchange c k s) = { s with
      txlog := s.txlog ++ [wireForm s.cfg (cmdBytes s.cfg c)],
      session := some { q with rxq := q.rxq.drop (respLen c) },
      phase := .run (.ret (.ok (q.rxq.take (respLen c))) k) } := by
  have hr : (send c s).rxq = q.rxq := rxq_of_session hs
  have hq : (send c s).session = some q := hs
  rw [exchange, poll_enough (hr ▸ enough), hr, setRxq_of_session hq]
  exact seqFinish_ret rfl

end

/-- Settles O12: a READ is its exchange, whose entry poll finds 65 bytes or waits. -/
theorem readSendsAndTakes : Obligations.ReadSendsAndTakes := by
  intro a c k s q hp hs hT
  have run : exec (.read a) s = .next (seqFinish (exchange (.read a) k s)) := exec_read_of_call hp
  refine ⟨fun short => ?_, fun enough => ?_⟩
  · exact run.trans (congrArg _ (seqFinish_exchange_wait hs hT short))
  · exact run.trans (congrArg _ (seqFinish_exchange_taken hs enough))

/-- Settles O13: a CRC is its exchange, whose entry poll finds a byte or waits. -/
theorem crcSendsAndTakes : Obligations.CrcSendsAndTakes := by
  intro c k s q hp hs hT
  have run : exec .crc s = .next (seqFinish (exchange .crc k s)) := exec_crc_of_call hp
  refine ⟨fun empty => ?_, fun st rest some => ?_⟩
  · exact run.trans (congrArg _ (seqFinish_exchange_wait hs hT (by simp [empty, respLen, Config.crcResp])))
  · rw [run, seqFinish_exchange_taken hs (by simp [some, respLen, Config.crcResp]), some]
    rfl

/-- R107: the two padding policies. -/
theorem pad_eq_ite (cfg : Config) (d : List Byte) :
    pad cfg d = if cfg.ragged = .zeroPad then d ++ List.replicate (64 - d.length) cfg.padByte else d := by
  cases hpol : cfg.ragged <;> simp [pad, hpol, Config.block]

/-- Settles O14: a WRITE of at most 64 bytes is its exchange, and a longer one raises an error before its `Send`. -/
theorem writeSendsAndTakes : Obligations.WriteSendsAndTakes := by
  intro a d c k s q sent hp hs hT hsent
  have run := exec_write_of_call (a := a) (d := d) hp
  have bytes : wireForm s.cfg (cmdBytes s.cfg (.write a d)) = sent := by rw [hsent, ← pad_eq_ite]; rfl
  refine ⟨fun size empty => ?_, fun st rest size some => ?_, fun size => ?_⟩
  · rw [run, callCmd_write_of_le size, seqFinish_exchange_wait hs hT (by simp [empty, respLen, Config.writeResp]), bytes]
    rfl
  · rw [run, callCmd_write_of_le size, seqFinish_exchange_taken hs (by simp [some, respLen, Config.writeResp]), bytes, some]
    rfl
  · rw [run, callCmd_write_of_gt size, seqFinish_raise rfl, abort_eq, abort_eq]
    rfl

/-- Settles O15: at a `Send` a wire command answers a next state, and elsewhere it stops. -/
theorem wireCommandsStopOnlyOffTheirSend : Obligations.WireCommandsStopOnlyOffTheirSend := by
  intro c s
  refine ⟨fun stop c' k hp => ?_, exec_instr_of_not_call⟩
  rw [exec_instr_of_call hp] at stop
  cases stop

/-! ### The first step of a host operation -/

/-- The size test in the form the rules of a call ask for. -/
theorem write_size_le {a : Addr} {d : List Byte} (h : d.length ≤ 64) :
    ∀ a' d', Cmd.write a d = .write a' d' → d'.length ≤ 64 := by
  rintro _ _ ⟨⟩
  exact h

/-- The first command in a fresh session is sent, and its take waits. -/
theorem seqFinish_goTo_fresh {c : Cmd} {k : Resume} {s : State} (hs : s.session = some { baud := 57600, rxq := [] })
    (hT : 1 ≤ s.cfg.timeoutTicks) (hc : ∀ a d, c = .write a d → d.length ≤ 64) :
    seqFinish (goTo c k s) = { s with
      txlog := s.txlog ++ [wireForm s.cfg (cmdBytes s.cfg c)], phase := .wait (respLen c) 0 k } :=
  seqFinish_call_wait (s := goTo c k s) rfl hs hT (respLen_pos c) hc

theorem exec_writeBlock_of_le {addr : Addr} {s : State} (h : s.hdata.length ≤ 64) :
    exec (.writeBlock addr) s = .next (seqFinish (goTo (.write addr s.hdata) (.writeBlock addr) (openSession s))) :=
  if_neg (Nat.not_lt.mpr h)

theorem exec_writeBlock_of_gt {addr : Addr} {s : State} (h : 64 < s.hdata.length) :
    exec (.writeBlock addr) s = .next (abort .invalidBlockSize .primitive s) :=
  if_pos h

theorem exec_checkCrc_of_block {addr : Addr} {s : State} (h : s.hdata.length = 64) :
    exec (.checkCrc addr) s =
      .next (seqFinish (goTo (.write s.cfg.map.crcStart s.hdata) (.crcTable .checkCrc) (openSession s))) := by
  have size : ¬ s.hdata.length ≠ Config.block := by simpa [Config.block] using h
  rw [exec, execCheckCrc, if_neg size, startCheckCrc_of_block h]
  rfl

theorem exec_checkCrc_of_ne {addr : Addr} {s : State} (h : s.hdata.length ≠ 64) :
    exec (.checkCrc addr) s = .next (abort .invalidCrcSize .primitive s) :=
  if_pos h

theorem exec_verify_of_load {addr : Addr} {s : State} {img : Image} (h : load s.cfg.map s.img = some img) :
    exec (.verify addr) s = .next (seqFinish (startVerifyRange .application img (openSession s))) := by
  simp [exec, execVerify, h]

theorem exec_verify_of_missing {addr : Addr} {s : State} (h : load s.cfg.map s.img = none) :
    exec (.verify addr) s = .next (abort .malformedImage .verify s) := by
  simp [exec, execVerify, h]

theorem exec_flash_of_load {addr : Addr} {s : State} {img : Image} (h : load s.cfg.map s.img = some img) :
    exec (.flash addr) s = .next (seqFinish (writeLoop (counterAt s.cfg.map.appStart) 0 img
      (report (.byteCount img.app.length) (openSession s)))) := by
  simp [exec, execFlash, h]

theorem exec_flash_of_missing {addr : Addr} {s : State} (h : load s.cfg.map s.img = none) :
    exec (.flash addr) s = .next (abort .malformedImage .flash s) := by
  simp [exec, execFlash, h]

/-! ### The heads of the loops -/

/-- While the counter is within the range, the next block is read (44_orchestrator.md R127). -/
theorem readLoop_of_le {p : Pass} {A : BitVec 17} {V : List Byte} {img : Image} {s : State}
    (h : A.toNat ≤ (p.last s.cfg.map).toNat) :
    readLoop p A V img s = goTo (.read (counterAddr A)) (.rangeRead p A V img) s := by
  simp [readLoop, counterWithin, h]

theorem readLoop_of_gt {p : Pass} {A : BitVec 17} {V : List Byte} {img : Image} {s : State}
    (h : (p.last s.cfg.map).toNat < A.toNat) : readLoop p A V img s = comparePass p V img s := by
  simp [readLoop, counterWithin, h]

/-- While bytes are left, the next chunk is written (R133). -/
theorem writeLoop_of_lt {A : BitVec 17} {K : Nat} {img : Image} {s : State} (h : K < img.app.length) :
    writeLoop A K img s = goTo (.write (counterAddr A) (chunkAt img.app K)) (.flashWrite A K img) s :=
  if_pos h

theorem writeLoop_of_ge {A : BitVec 17} {K : Nat} {img : Image} {s : State} (h : img.app.length ≤ K) :
    writeLoop A K img s = startCheckCrc img.crct (.flash img) (report .writeDone s) :=
  if_neg (Nat.not_lt.mpr h)

theorem chunkAt_length_le (app : List Byte) (K : Nat) : (chunkAt app K).length ≤ 64 :=
  List.length_take_le _ _

/-- No range of a well-formed map is empty, so a verify pass starts with a READ of its first address. -/
theorem startVerifyRange_eq {s : State} (hwf : s.cfg.map.wf = true) (p : Pass) (img : Image) :
    startVerifyRange p img s = goTo (.read (p.first s.cfg.map))
      (.rangeRead p (counterAt (p.first s.cfg.map)) [] img) (report .verifyStart s) := by
  obtain ⟨app, -, nvm, -⟩ := map_bounds hwf
  have within : (counterAt (p.first s.cfg.map)).toNat ≤ (p.last s.cfg.map).toNat := by
    rw [counterAt_toNat]
    cases p <;> assumption
  rw [startVerifyRange, readLoop_of_le (s := report .verifyStart s) within, counterAddr_counterAt]

/-- The application region of a well-formed map is not empty. -/
theorem Image.fits.app_pos {map : MemMap} {img : Image} (hwf : map.wf = true) (h : img.fits map) : 0 < img.app.length := by
  obtain ⟨app, -⟩ := map_bounds hwf
  rw [h.1]
  omega

/-! ### The obligations -/

/-- Settles O16: the operation is `Open` and a call of READ in the fresh session. -/
theorem readBlockStarts : Obligations.ReadBlockStarts := by
  intro addr s hT
  have run : exec (.readBlock addr) s = .next (seqFinish (goTo (.read addr) (.readBlock addr) (openSession s))) := rfl
  rw [run, seqFinish_goTo_fresh (c := .read addr) (s := openSession s) rfl hT nofun]
  rfl

/-- Settles O17: the size test decides before the session opens. -/
theorem writeBlockStarts : Obligations.WriteBlockStarts := by
  intro addr s hT hs
  refine ⟨fun size => ?_, fun size => ?_⟩
  · rw [exec_writeBlock_of_le size, seqFinish_goTo_fresh (s := openSession s) rfl hT (write_size_le size)]
    rfl
  · rw [exec_writeBlock_of_gt size, abort_primitive_eq hs]
    rfl

/-- Settles O18: a table of one block is written as it is under both padding policies. -/
theorem checkCrcStarts : Obligations.CheckCrcStarts := by
  intro addr s hT hs
  refine ⟨fun size => ?_, fun size => ?_⟩
  · have bytes : cmdBytes s.cfg (.write s.cfg.map.crcStart s.hdata) = _ := writeBytes_of_length_block s.cfg _ size
    rw [exec_checkCrc_of_block size, 
      seqFinish_goTo_fresh (s := openSession s) rfl hT (write_size_le size.le), openSession_cfg, bytes]
    rfl
  · rw [exec_checkCrc_of_ne size, abort_primitive_eq hs]
    rfl

/-- Settles O19: the abort outside a session after a failed load; else the first READ of the pass, in a fresh session. -/
theorem verifyStarts : Obligations.VerifyStarts := by
  intro addr s hwf hs
  refine ⟨fun missing => ?_, fun img loaded => ?_⟩
  · rw [exec_verify_of_missing missing, abort_eq]
    simp only [hs]
    rfl
  · rw [exec_verify_of_load loaded, startVerifyRange_eq (s := openSession s) (map_wf hwf),
      seqFinish_goTo_fresh (c := .read _) (s := report .verifyStart (openSession s)) rfl (timeoutTicks_pos hwf) nofun]
    rfl

/-- Settles O20: the abort outside a session after a failed load; else the first chunk of the region, which is not empty, in a
fresh session. -/
theorem flashStarts : Obligations.FlashStarts := by
  intro addr s hwf hs
  refine ⟨fun missing => ?_, fun img loaded => ?_⟩
  · rw [exec_flash_of_missing missing, abort_eq]
    simp only [hs]
    rfl
  · have notEmpty : 0 < img.app.length := (load_fits (map_wf hwf) loaded).app_pos (map_wf hwf)
    rw [exec_flash_of_load loaded, writeLoop_of_lt notEmpty, counterAddr_counterAt,
      seqFinish_goTo_fresh (s := report _ (openSession s)) rfl (timeoutTicks_pos hwf) (write_size_le (chunkAt_length_le _ _))]
    rfl

end Sys2Proof.Machine
end

section
/-! The image a host presents, the chunks of its application region and the counter that addresses them (43_image_model.md
R115, 44_orchestrator.md R132, 20_memory.md R47). -/

namespace Sys2Proof.Machine

/-! ### The latched image -/

theorem ofPairs_cons (p : Addr × Byte) (ps : List (Addr × Byte)) :
    Memory.ofPairs (p :: ps) = Memory.write (Memory.ofPairs ps) p.1.toNat p.2 := rfl

/-- Settles O33: the first pair is written last, so it hides the later pairs of its address and leaves the others. -/
theorem latchedImageReads : Obligations.LatchedImageReads := by
  intro ps a
  induction ps with
  | nil => rfl
  | cons p ps ih =>
    rw [ofPairs_cons]
    by_cases hp : p.1 = a
    · rw [hp, read_write_same, List.find?_cons_of_pos (by simpa using hp), Option.map_some]
    · have ne : a.toNat ≠ p.1.toNat := fun he => hp (BitVec.eq_of_toNat_eq he).symm
      rw [read_write_other ne, List.find?_cons_of_neg (by simpa using hp), ih]

/-! ### Chunks -/

theorem chunkAt_length (app : List Byte) (K : Nat) : (chunkAt app K).length = min 64 (app.length - K) := by
  simp [chunkAt, Config.block]

/-- The first `n` chunks are the first `64 * n` bytes. -/
theorem chunks_flatten (app : List Byte) (n : Nat) :
    ((List.range n).map fun j => chunkAt app (64 * j)).flatten = app.take (64 * n) := by
  induction n with
  | zero => simp
  | succ n ih =>
    rw [List.range_succ, List.map_append, List.flatten_append, ih, Nat.mul_succ, List.take_add]
    simp [chunkAt, Config.block]

theorem lt_blocks_iff {n j : Nat} : j < Claims.blocks n ↔ 64 * j < n := by
  unfold Claims.blocks
  omega

/-- Settles O37: all `blocks` chunks together are the whole region, and each of them starts before its end. -/
theorem chunksPartitionTheApplication : Obligations.ChunksPartitionTheApplication := by
  intro app
  refine ⟨?_, fun j _ => chunkAt_length app _, fun j hj => ?_⟩
  · have whole : app.length ≤ 64 * Claims.blocks app.length := by
      have last := lt_blocks_iff (n := app.length) (j := Claims.blocks app.length)
      omega
    rw [chunks_flatten, List.take_of_length_le whole]
  · have start := lt_blocks_iff.mp hj
    rw [chunkAt_length]
    omega

/-! ### The counter -/

/-- A counter below 2^16 is the address it sends. -/
theorem counterAddr_toNat {A : BitVec 17} (h : A.toNat < 65536) : (counterAddr A).toNat = A.toNat := by
  simp only [counterAddr, BitVec.extractLsb'_toNat, Nat.shiftRight_zero]
  exact Nat.mod_eq_of_lt h

/-- Settles O38: a region's end is below 2^16, so 17 bits hold the counter before and after the addition. -/
theorem counterNeverWraps : Obligations.CounterNeverWraps := by
  intro A e hle
  have small : A.toNat < 65536 := hle.trans_lt e.isLt
  have sent := counterAddr_toNat small
  exact ⟨sent, sent.trans_le hle, counterNext_toNat small⟩

end Sys2Proof.Machine
end

section
/-! Registers, the host's issue, reset, and how a take ends (10_state.md R21, R25, R33, 41_response_buffer.md R95, R96,
70_reset_and_hazards.md R158). -/

namespace Sys2Proof.Machine

/-! ### STATUS -/

theorem status_bits (s : State) :
    s.status.getLsbD 0 = s.busy ∧ s.status.getLsbD 1 = s.done ∧ s.status.getLsbD 2 = s.session.isSome := by
  simp only [State.status, BitVec.getLsbD_append]
  simp [State.sess]

theorem status_reserved (s : State) : s.status.extractLsb' 3 5 = 0 :=
  calc s.status.extractLsb' 3 5
    _ = ((0 : BitVec 5) ++ BitVec.ofBool s.sess ++ BitVec.ofBool s.done).extractLsb' 2 5 :=
      BitVec.extractLsb'_append_eq_of_le (by decide)
    _ = ((0 : BitVec 5) ++ BitVec.ofBool s.sess).extractLsb' 1 5 := BitVec.extractLsb'_append_eq_of_le (by decide)
    _ = 0 := BitVec.extractLsb'_append_eq_left

/-- A session is open only while an operation runs. -/
theorem State.Inv.busy_of_session {s : State} (h : s.Inv) (hs : s.session.isSome = true) : s.busy = true := by
  have inSession : s.phase.inSession = true := h.session_iff ▸ hs
  refine h.busy_iff.mpr fun idle => ?_
  rw [idle] at inSession
  cases inSession

/-- Settles O42: the bits are those of R21's layout; the exclusions are parts of the invariant. -/
theorem statusRegister : Obligations.StatusRegister := by
  intro s
  obtain ⟨busy, done, sess⟩ := status_bits s
  refine ⟨busy, done, sess, status_reserved s, fun inv => ⟨?_, ?_⟩⟩
  · rintro ⟨hbusy, hdone⟩
    have idle := inv.done_not_busy (done.symm.trans hdone)
    rw [busy, idle] at hbusy
    cases hbusy
  · intro hsess
    exact busy.trans (inv.busy_of_session (sess.symm.trans hsess))

/-! ### Issue and reset -/

/-- Settles O32: HOST's turn tests BUSY and then the size of HDATA. -/
theorem issueLatchesAndStarts : Obligations.IssueLatchesAndStarts := by
  intro s w d m ts hwf ht
  rw [step_cons hwf ht]
  refine ⟨fun hbusy hsize => ?_, fun hbusy => ?_, fun hbusy hsize => ?_⟩
  · simp [takeTurn, hostIssue, hbusy, Nat.not_lt.mpr hsize, accept]
  · simp [takeTurn, hostIssue, hbusy]
  · simp [takeTurn, hostIssue, hbusy, hsize]

theorem step_reset {s : State} {ts : List Turn} (hwf : s.cfg.wf = true) (ht : s.turns = .reset :: ts) :
    step s = .next { State.reset with cfg := s.cfg, turns := ts } :=
  step_cons hwf ht

/-- Settles O44: the state after a reset turn is the reset state, but for the configuration and the agenda. -/
theorem resetTurnAbandons : Obligations.ResetTurnAbandons := by
  intro s ts hwf ht
  exact ⟨_, step_reset hwf ht, status_eq_zero rfl rfl rfl, rfl, rfl, rfl, rfl, rfl, rfl, rfl, rfl, rfl⟩

/-! ### FAULT -/

theorem Next.fault_eq {o : Owner} {s s' : State} (h : Next o s s') : s'.fault = s.fault := by
  cases h with
  | goTo _ _ _ _ _ _ h => simp [h]
  | raise _ _ _ h => simp [h]
  | finish _ _ _ h => simp [h]

theorem Started.fault_eq {s s' : State} (h : Started s s') : s'.fault = s.fault := by
  cases h with
  | completed _ _ h => simp [h]
  | aborted _ _ h => simp [h]
  | ran _ _ _ hn h => simp [h, hn.fault_eq]

theorem seqTurn_fault {s s' : State} (h : seqTurn s = .next s') : s'.fault = s.fault := by
  obtain ⟨-, started | rfl⟩ | ⟨-, rfl⟩ | ⟨r, k, -, rfl⟩ | ⟨-, rfl⟩ := seqTurn_cases h
  · exact started.fault_eq
  all_goals simp

theorem hostIssue_fault {w : BitVec 32} {d : List Byte} {m : List (Addr × Byte)} {s s' : State}
    (h : hostIssue w d m s = .next s') : s'.fault = s.fault := by
  obtain ⟨-, -, rfl⟩ := hostIssue_cases h
  simp

@[simp] theorem timeTick_fault (s : State) : (timeTick s).fault = s.fault := by
  unfold timeTick
  split
  · exact poll_fault _ _ _ _
  all_goals rfl

/-- Only RXA's turn and reset touch FAULT, one case per agent. -/
theorem takeTurn_fault {t : Turn} {s s' : State} (h : takeTurn t s = .next s') :
    (t = .reset ∧ s'.fault = false) ∨ (t ≠ .reset ∧ s'.fault = s.fault) ∨
    (∃ b cap q, t = .rx b ∧ s.cfg.rxCapacity = some cap ∧ s.session = some q ∧ cap ≤ q.rxq.length ∧ s'.fault = true) := by
  cases t with
  | issue w d m => exact .inr (.inl ⟨nofun, hostIssue_fault h⟩)
  | seq => exact .inr (.inl ⟨nofun, seqTurn_fault h⟩)
  | tick => cases h; exact .inr (.inl ⟨nofun, timeTick_fault s⟩)
  | reset => cases h; exact .inl ⟨rfl, rfl⟩
  | rx b =>
    cases h
    obtain ⟨-, he⟩ | ⟨q, cap, hs, hc, full, he⟩ | ⟨q, -, -, he⟩ := rxAppend_cases b s
    · exact .inr (.inl ⟨nofun, by rw [he]⟩)
    · exact .inr (.inr ⟨b, cap, q, rfl, hc, hs, full, by rw [he]⟩)
    · exact .inr (.inl ⟨nofun, by rw [he]⟩)

/-- The turn the machine takes when the agenda is empty is SEQ's or TIME's, which leave FAULT alone. -/
theorem takeTurn_defaultTurn_fault {s s' : State} (h : takeTurn (defaultTurn s) s = .next s') : s'.fault = s.fault := by
  obtain ⟨ht, -⟩ | ⟨-, he⟩ | ⟨b, -, -, ht, -⟩ := takeTurn_fault h
  · exact absurd ht (defaultTurn_ne_reset s)
  · exact he
  · unfold defaultTurn at ht
    split at ht <;> cases ht

/-- What a step can do to FAULT. -/
theorem step_fault {s s' : State} (h : step s = .next s') :
    (∃ ts, s.turns = .reset :: ts ∧ s'.fault = false) ∨
    ((∀ ts, s.turns ≠ .reset :: ts) ∧ s'.fault = s.fault) ∨
    (∃ b ts cap q, s.turns = .rx b :: ts ∧ s.cfg.rxCapacity = some cap ∧ s.session = some q ∧ cap ≤ q.rxq.length ∧
      s'.fault = true) := by
  obtain ⟨hnil, he⟩ | ⟨t, ts, ht, he⟩ := step_turn s (step_wf h)
  · exact .inr (.inl ⟨by simp [hnil], takeTurn_defaultTurn_fault (he.symm.trans h)⟩)
  · obtain ⟨rfl, cleared⟩ | ⟨ne, same⟩ | ⟨b, cap, q, rfl, hc, hs, full, set⟩ :=
      takeTurn_fault (s := { s with turns := ts }) (he.symm.trans h)
    · exact .inl ⟨ts, ht, cleared⟩
    · exact .inr (.inl ⟨by simp [ht, ne], same⟩)
    · exact .inr (.inr ⟨b, ts, cap, q, ht, hc, hs, full, set⟩)

/-- Settles O46: a reset clears FAULT, a byte that finds the buffer full sets it, and no other step changes it. -/
theorem faultSetByOverflowClearedByReset : Obligations.FaultSetByOverflowClearedByReset := by
  refine ⟨rfl, fun s hfault ⟨_, _, _, clear⟩ => absurd (clear.symm.trans hfault) nofun, fun s s' h => ?_⟩
  obtain ⟨ts, ht, cleared⟩ | ⟨noReset, same⟩ | ⟨b, ts, cap, q, ht, hc, hs, full, set⟩ := step_fault h
  · exact ⟨fun _ noReset => absurd ht (noReset ts), fun _ => cleared, fun _ set => absurd (cleared.symm.trans set) nofun⟩
  · exact ⟨fun set _ => same.trans set, fun ⟨ts, ht⟩ => absurd ht (noReset ts),
      fun clear set => absurd (clear.symm.trans (same.symm.trans set)) nofun⟩
  · exact ⟨fun _ _ => set, fun ⟨_, ht'⟩ => absurd (ht.symm.trans ht') nofun,
      fun _ _ => ⟨b, ts, cap, q, ht, hc, hs, full⟩⟩

/-! ### How a take ends -/

/-- A poll that times out changes SEQ's control point alone (41_response_buffer.md R95). -/
theorem poll_session_of_timedOut {n t : Nat} {k k' : Resume} {s : State}
    (h : (poll n t k s).phase = .run (.ret .timedOut k')) : (poll n t k s).session = s.session := by
  obtain ⟨-, he⟩ | ⟨-, -, he⟩ | ⟨-, -, he⟩ := poll_cases n t k s
  · rw [he] at h; cases h
  · rw [he]
  · rw [he]

/-- In a wait a turn ends in a returned take only by TIME's poll: SEQ and HOST have no turn that does. -/
theorem takeTurn_wait_timedOut {t : Turn} {s s' : State} {n m : Nat} {k k' : Resume} (hp : s.phase = .wait n m k)
    (h : takeTurn t s = .next s') (hp' : s'.phase = .run (.ret .timedOut k')) : s'.session = s.session := by
  cases t with
  | issue w d img =>
    obtain ⟨-, -, rfl⟩ := hostIssue_cases h
    cases hp'
  | seq => simp [takeTurn, seqTurn, fetch, hp] at h
  | rx b =>
    cases h
    obtain ⟨-, he⟩ | ⟨_, _, -, -, -, he⟩ | ⟨_, -, -, he⟩ := rxAppend_cases b s <;>
      (rw [he] at hp'; exact absurd (hp.symm.trans hp') nofun)
  | tick =>
    cases h
    rw [timeTick_wait hp] at hp' ⊢
    exact poll_session_of_timedOut hp'
  | reset => cases h; cases hp'

/-- Settles O28: whichever turn ends the take, the session is the one the poll found, and the buffer is part of it. -/
theorem timedOutTakeKeepsBuffer : Obligations.TimedOutTakeKeepsBuffer := by
  intro s s' n t k k' hp h hp'
  have session : s'.session = s.session := by
    obtain ⟨-, he⟩ | ⟨turn, ts, -, he⟩ := step_turn s (step_wf h)
    · exact takeTurn_wait_timedOut hp (he.symm.trans h) hp'
    · exact takeTurn_wait_timedOut (s := { s with turns := ts }) hp (he.symm.trans h) hp'
  exact ⟨rxq_congr session, session⟩

@[simp] theorem rxAppend_phase (b : Byte) (s : State) : (rxAppend b s).phase = s.phase := by
  obtain ⟨-, h⟩ | ⟨_, _, -, -, -, h⟩ | ⟨_, -, -, h⟩ := rxAppend_cases b s <;> rw [h]

@[simp] theorem rxAppend_turns (b : Byte) (s : State) : (rxAppend b s).turns = s.turns := by
  obtain ⟨-, h⟩ | ⟨_, _, -, -, -, h⟩ | ⟨_, -, -, h⟩ := rxAppend_cases b s <;> rw [h]

/-- In a wait TIME's turn is one poll. -/
theorem step_tick_poll {s : State} {n t : Nat} {k : Resume} {ts : List Turn} (hwf : s.cfg.wf = true)
    (hp : s.phase = .wait n t k) (ht : s.turns = .tick :: ts) :
    step s = .next (poll n (t + 1) k { s with turns := ts }) :=
  (step_tick hwf ht).trans (congrArg _ (timeTick_wait hp))

/-- Settles O29, by induction on the agenda: an arriving byte leaves the take waiting, and a tick either ends it or brings it
one tick nearer to its timeout. -/
theorem everyTakeEnds : Obligations.EveryTakeEnds := by
  intro s n t k evs ts hwf hp ht hevs hlt hticks
  induction evs generalizing s t with
  | nil =>
    rw [List.count_nil] at hticks
    omega
  | cons x evs ih =>
    have rest : ∀ y ∈ evs, y = .tick ∨ ∃ b, y = .rx b := fun y hy => hevs y (List.mem_cons_of_mem x hy)
    obtain rfl | ⟨b, rfl⟩ := hevs x List.mem_cons_self
    · have tick := step_tick_poll (ts := evs ++ ts) hwf hp ht
      rw [List.count_cons_self] at hticks
      obtain ⟨-, he⟩ | ⟨-, -, he⟩ | ⟨-, early, he⟩ := poll_cases n (t + 1) k { s with turns := evs ++ ts }
      · exact ⟨1, _, _, by simp, (runSteps_succ tick 0).trans rfl, by rw [he]⟩
      · exact ⟨1, _, _, by simp, (runSteps_succ tick 0).trans rfl, by rw [he]⟩
      · rw [he] at tick
        obtain ⟨m, s', r, hm, run, hr⟩ := ih { s with turns := evs ++ ts, phase := .wait n (t + 1) k } (t + 1) hwf rfl rfl rest
          early (by dsimp only; omega)
        exact ⟨m + 1, s', r, by simpa using hm, (runSteps_succ tick m).trans run, hr⟩
    · rw [List.count_cons_of_ne (show Turn.rx b ≠ .tick from nofun)] at hticks
      have arrives := step_rx (ts := evs ++ ts) hwf ht
      obtain ⟨m, s', r, hm, run, hr⟩ := ih (rxAppend b { s with turns := evs ++ ts }) t (by simpa using hwf)
        (by simpa using hp) (by simp) rest (by simpa using hlt) (by simpa using hticks)
      exact ⟨m + 1, s', r, by simpa using hm, (runSteps_succ arrives m).trans run, hr⟩

end Sys2Proof.Machine
end

section
/-! A SEQ step (10_state.md R29, 41_response_buffer.md R92): the instruction it runs, how it goes on after a take, where it
ends, and what it sends and reports. -/

namespace Sys2Proof.Machine

/-! ### The instruction a step runs -/

/-- Every instruction is a wire command or has a HOSTOP word. -/
theorem instr_cases (i : Instr) : (∃ c : Cmd, i = c.instr) ∨ ∃ w, encode i = .host w := by
  cases i with
  | read a => exact .inl ⟨.read a, rfl⟩
  | crc => exact .inl ⟨.crc, rfl⟩
  | write a d => exact .inl ⟨.write a d, rfl⟩
  | encode _ | decode _ | readBlock _ | writeBlock _ | checkCrc _ | verify _ | flash _ => exact .inr ⟨_, rfl⟩

/-- The first step of a host operation, said once: what `exec` answers, by the tests that come before it. -/
inductive HostStart (s : State) : Instr → State → Prop where
  | encode (a : Addr) : HostStart s (.encode a) (complete .ok (encodeFrame s.cfg s.hdata) s)
  | decodeOk (a : Addr) (p : List Byte) (h : decodeFrame s.cfg s.hdata = .ok p) : HostStart s (.decode a) (complete .ok p s)
  | decodeError (a : Addr) (x : DecodeReason) (h : decodeFrame s.cfg s.hdata = .error x) :
    HostStart s (.decode a) (abort (.decodeError x) .primitive s)
  | readBlock (a : Addr) : HostStart s (.readBlock a) (seqFinish (goTo (.read a) (.readBlock a) (openSession s)))
  | writeTooLong (a : Addr) (h : 64 < s.hdata.length) : HostStart s (.writeBlock a) (abort .invalidBlockSize .primitive s)
  | writeBlock (a : Addr) (h : s.hdata.length ≤ 64) :
    HostStart s (.writeBlock a) (seqFinish (goTo (.write a s.hdata) (.writeBlock a) (openSession s)))
  | crcWrongSize (a : Addr) (h : s.hdata.length ≠ 64) : HostStart s (.checkCrc a) (abort .invalidCrcSize .primitive s)
  | checkCrc (a : Addr) (h : s.hdata.length = 64) : HostStart s (.checkCrc a)
    (seqFinish (goTo (.write s.cfg.map.crcStart s.hdata) (.crcTable .checkCrc) (openSession s)))
  | verifyMissing (a : Addr) (h : load s.cfg.map s.img = none) : HostStart s (.verify a) (abort .malformedImage .verify s)
  | verify (a : Addr) (img : Image) (h : load s.cfg.map s.img = some img) :
    HostStart s (.verify a) (seqFinish (startVerifyRange .application img (openSession s)))
  | flashMissing (a : Addr) (h : load s.cfg.map s.img = none) : HostStart s (.flash a) (abort .malformedImage .flash s)
  | flash (a : Addr) (img : Image) (h : load s.cfg.map s.img = some img) : HostStart s (.flash a)
    (seqFinish (writeLoop (counterAt s.cfg.map.appStart) 0 img (report (.byteCount img.app.length) (openSession s))))

/-- A host operation never stops. -/
theorem exec_hostStart {i : Instr} {w : BitVec 32} (hi : encode i = .host w) (s : State) :
    ∃ s', exec i s = .next s' ∧ HostStart s i s' := by
  cases i with
  | read _ | crc | write _ _ => cases hi
  | encode a => exact ⟨_, exec_encode a s, .encode a⟩
  | readBlock a => exact ⟨_, rfl, .readBlock a⟩
  | decode a =>
    cases hd : decodeFrame s.cfg s.hdata with
    | ok p => exact ⟨_, exec_decode_of_ok a hd, .decodeOk a p hd⟩
    | error x => exact ⟨_, exec_decode_of_error a hd, .decodeError a x hd⟩
  | writeBlock a =>
    obtain size | size := Nat.lt_or_ge 64 s.hdata.length
    · exact ⟨_, exec_writeBlock_of_gt size, .writeTooLong a size⟩
    · exact ⟨_, exec_writeBlock_of_le size, .writeBlock a size⟩
  | checkCrc a =>
    by_cases size : s.hdata.length = 64
    · exact ⟨_, exec_checkCrc_of_block size, .checkCrc a size⟩
    · exact ⟨_, exec_checkCrc_of_ne size, .crcWrongSize a size⟩
  | verify a =>
    cases hl : load s.cfg.map s.img with
    | some img => exact ⟨_, exec_verify_of_load hl, .verify a img hl⟩
    | none => exact ⟨_, exec_verify_of_missing hl, .verifyMissing a hl⟩
  | flash a =>
    cases hl : load s.cfg.map s.img with
    | some img => exact ⟨_, exec_flash_of_load hl, .flash a img hl⟩
    | none => exact ⟨_, exec_flash_of_missing hl, .flashMissing a hl⟩

/-- A table word reads as an operation only where its bits are that operation's HOSTOP word. -/
theorem decodeHost_of_decodeTableWord {nbits w : Nat} {i : Instr} {w' : BitVec 32} (hi : encode i = .host w')
    (h : decodeTableWord nbits w = some i) : decodeHost (BitVec.ofNat 32 w) = .ok i := by
  have notWire : ∀ pol p, (decodeWire pol p).toOption ≠ some i := by
    intro pol p hp
    cases hd : decodeWire pol p with
    | error x => rw [hd] at hp; cases hp
    | ok j =>
      rw [hd] at hp
      obtain rfl : j = i := Option.some.inj hp
      have code := (encode_wf_of_decodeWire hd).1
      rw [hi] at code
      cases code
  simp only [decodeTableWord] at h
  split at h
  · split at h
    · next hd => cases h; exact hd
    · exact absurd h (notWire _ _)
  · exact absurd h (notWire _ _)

theorem placeInstr_of_host {i : Instr} {w' : BitVec 32} (hi : encode i = .host w') (w : BitVec 32) (s : State) :
    placeInstr (some i) w s = placeHost w s := by
  cases i with
  | read _ | crc | write _ _ => cases hi
  | encode _ | decode _ | readBlock _ | writeBlock _ | checkCrc _ | verify _ | flash _ => rfl

theorem placeInstr_of_cmd (c : Cmd) (w : BitVec 32) (s : State) :
    ∃ k, placeInstr (some c.instr) w s = placeCmd c k s := by
  cases c <;> exact ⟨_, rfl⟩

theorem seqNext_of_nil {s : State} (h : s.turns = []) : seqNext s = s := by
  simp [seqNext, h]

theorem step_nil_of_run {s : State} {p : Pos} (hwf : s.cfg.wf = true) (hp : s.phase = .run p) (ht : s.turns = []) :
    step s = seqTurn s := by
  have turn : defaultTurn s = .seq := by simp [defaultTurn, hp]
  rw [step_nil hwf ht, turn, takeTurn]

theorem step_start_nil {s : State} {i : Instr} (hwf : s.cfg.wf = true) (hp : s.phase = .run .start)
    (hd : decode s.cfg.ragged (.host s.hostop) = .ok i) (ht : s.turns = []) : step s = exec i s := by
  rw [step_nil_of_run hwf hp ht, seqTurn_start hp hd]

theorem step_call_nil {s : State} {c : Cmd} {k : Resume} (hwf : s.cfg.wf = true) (hp : s.phase = .run (.call c k))
    (ht : s.turns = []) : step s = exec c.instr s := by
  rw [step_nil_of_run hwf hp ht, seqTurn_call hp]

/-- A placed word runs: SEQ stands at the start of its operation, or at its `Send`. -/
theorem step_withFetchWord {s : State} {nbits w : Nat} {i : Instr} (hwf : s.cfg.wf = true)
    (h : decodeTableWord nbits w = some i) (ht : s.turns = []) :
    step (s.withFetchWord nbits w) = exec i (s.withFetchWord nbits w) := by
  rw [State.withFetchWord, h]
  obtain ⟨c, rfl⟩ | ⟨w', hi⟩ := instr_cases i
  · obtain ⟨k, he⟩ := placeInstr_of_cmd c (BitVec.ofNat 32 w) s
    rw [he, seqNext_of_nil (s := placeCmd c k s) ht]
    exact step_call_nil (s := placeCmd c k s) hwf rfl ht
  · rw [placeInstr_of_host hi, seqNext_of_nil (s := placeHost _ s) ht]
    exact step_start_nil (s := placeHost _ s) hwf rfl (decodeHost_of_decodeTableWord hi h) ht

theorem step_seq {s : State} {ts : List Turn} (hwf : s.cfg.wf = true) (ht : s.turns = .seq :: ts) :
    step s = seqTurn { s with turns := ts } :=
  step_cons hwf ht

/-- Settles O49: SEQ's turn at the start of an operation and at a `Send`, taken from the agenda or by default. -/
theorem stepRunsDecodedInstruction : Obligations.StepRunsDecodedInstruction := by
  intro s hwf
  refine ⟨fun i ts hp hd ht => ?_, fun i hp hd ht => step_start_nil hwf hp hd ht, fun c k ts hp ht => ?_,
    fun c k hp ht => step_call_nil hwf hp ht, fun nbits w i h ht => step_withFetchWord hwf h ht⟩
  · exact (step_seq hwf ht).trans (seqTurn_start (s := { s with turns := ts }) hp hd)
  · exact (step_seq hwf ht).trans (seqTurn_call (s := { s with turns := ts }) hp)

/-! ### After a take -/

/-- Settles O50: what follows the take is the rest of a SEQ step, from where SEQ's own statements lead. -/
theorem seqGoesOnAfterTake : Obligations.SeqGoesOnAfterTake := by
  intro s r k ts hwf hp ht
  have run := step_seq_ret s r k ts hwf hp ht
  refine ⟨fun c k' call => ?_, fun e o raised => ?_, fun idle => ?_⟩
  · rw [run, exec_of_call call]
  · rw [run, seqFinish_raise raised]
  · rw [run, seqFinish_idle idle]

/-- Settles O40: a raise after a take keeps all but the events reported, and the abort path ends the operation. -/
theorem raisedErrorEndsOperation : Obligations.RaisedErrorEndsOperation := by
  intro s r k e o ts hwf hp ht raised
  have run : step s = .next (abort e o (resume r k { s with turns := ts })) := by
    rw [step_seq_ret s r k ts hwf hp ht, seqFinish_raise raised]
  rw [run]
  cases resume_next r k { s with turns := ts } with
  | goTo evs _ c k' _ _ h => rw [h] at raised; cases raised
  | finish evs _ out h => rw [h] at raised; cases raised
  | raise evs _ e' h =>
    rw [h] at raised ⊢
    obtain ⟨rfl, rfl⟩ : e' = e ∧ k.owner = o := by simpa using raised
    rw [abort_eq]
    cases k.owner <;> exact ⟨rfl, rfl⟩

/-- The two failures of an exchange raise its error with their cause (42_block_primitives.md R105). -/
theorem resume_of_failure {r : TakeResult} {why : Cause} (k : Resume) (s : State)
    (h : (r = .timedOut ∧ why = .timedOut) ∨ (∃ st d, r = .ok (st :: d) ∧ st ≠ 0 ∧ why = .status st)) :
    resume r k s = raise (k.error s.cfg why) k.owner s := by
  obtain ⟨rfl, rfl⟩ | ⟨st, d, rfl, hst, rfl⟩ := h
  · rfl
  · have bad : statusByte (st :: d) ≠ Config.statusOk := hst
    rw [resume, check, if_neg bad]
    rfl

/-- Settles O41: a failed exchange raises its error with no statement in between, and the abort path ends the operation. -/
theorem failedExchangeAborts : Obligations.FailedExchangeAborts := by
  intro s r k ts why hwf hp ht failure
  rw [step_seq_ret s r k ts hwf hp ht, resume_of_failure k _ failure, seqFinish_raise rfl, abort_eq]
  cases k with
  | readBlock a | writeBlock a | flashWrite A K img => rfl
  | crcTable u | crcStatus u => cases u <;> rfl
  | rangeRead p A V img => cases p <;> rfl

/-! ### Where a SEQ step ends -/

/-- A SEQ step that found `log` in TXLOG ends in `s'` as R29 and R92 say: at completion with nothing sent, or in the take of
the one command it sent. -/
def EndsInTakeOrIdle (log : List (List Byte)) (s' : State) : Prop :=
  (s'.phase = .idle ∧ s'.txlog = log) ∨
  ∃ w, s'.txlog = log ++ [w] ∧
    ((∃ n k, s'.phase = .wait n 0 k ∧ s'.rxq.length < n) ∨ ∃ r k, s'.phase = .run (.ret (.ok r) k))

theorem abort_endsIdle (e : Err) (o : Owner) (s : State) : EndsInTakeOrIdle s.txlog (abort e o s) :=
  .inl ⟨abort_phase e o s, abort_txlog e o s⟩

/-- A call ends in its take, whose entry poll cannot time out, or in the abort of a WRITE that is too long. -/
theorem seqFinish_callCmd_ends {s : State} (hT : 1 ≤ s.cfg.timeoutTicks) (c : Cmd) (k : Resume) :
    EndsInTakeOrIdle s.txlog (seqFinish (callCmd c k s)) := by
  obtain ⟨a, d, -, -, he⟩ | ⟨-, he⟩ := callCmd_cases c k s
  · rw [he, seqFinish_raise rfl]
    exact abort_endsIdle _ _ (raise _ _ s)
  · have log := exchange_txlog c k s
    rw [he]
    rw [exchange] at log ⊢
    obtain ⟨-, hpoll⟩ | ⟨-, late, -⟩ | ⟨short, -, hpoll⟩ := poll_cases (respLen c) 0 k (send c s)
    · have rests : (poll (respLen c) 0 k (send c s)).phase = .run (.ret (.ok ((send c s).rxq.take (respLen c))) k) := by
        rw [hpoll]
      rw [seqFinish_ret rests]
      exact .inr ⟨_, log, .inr ⟨_, _, rests⟩⟩
    · exact absurd hT (Nat.not_le.mpr (Nat.lt_one_iff.mpr (Nat.le_zero.mp late)))
    · have waits : (poll (respLen c) 0 k (send c s)).phase = .wait (respLen c) 0 k := by rw [hpoll]
      rw [seqFinish_wait waits]
      exact .inr ⟨_, log, .inl ⟨_, _, waits, by rw [hpoll]; exact short⟩⟩

theorem seqFinish_call_ends {s : State} {c : Cmd} {k : Resume} (hT : 1 ≤ s.cfg.timeoutTicks)
    (hp : s.phase = .run (.call c k)) : EndsInTakeOrIdle s.txlog (seqFinish s) := by
  rw [seqFinish_call hp]
  exact seqFinish_callCmd_ends hT c k

theorem seqFinish_ends_of_next {o : Owner} {s s' : State} (h : Next o s s') (hT : 1 ≤ s.cfg.timeoutTicks) :
    EndsInTakeOrIdle s.txlog (seqFinish s') := by
  cases h with
  | goTo evs _ c k _ _ h =>
    rw [h]
    exact seqFinish_call_ends (s := goTo c k { s with plog := s.plog ++ evs }) hT rfl
  | raise evs _ e h =>
    rw [h, seqFinish_raise rfl]
    exact abort_endsIdle _ _ (raise e o { s with plog := s.plog ++ evs })
  | finish evs _ out h =>
    rw [h, seqFinish_idle rfl]
    exact .inl ⟨rfl, rfl⟩

theorem Started.ends {s s' : State} (hT : 1 ≤ s.cfg.timeoutTicks) (h : Started s s') : EndsInTakeOrIdle s.txlog s' := by
  cases h with
  | completed o out h => rw [h]; exact .inl ⟨rfl, rfl⟩
  | aborted e o h => rw [h]; exact abort_endsIdle e o s
  | ran s₀ o evs hn h => rw [h]; exact (seqFinish_ends_of_next hn hT :)

theorem seqTurn_ends {s s' : State} (hT : 1 ≤ s.cfg.timeoutTicks) (h : seqTurn s = .next s') :
    EndsInTakeOrIdle s.txlog s' := by
  obtain ⟨-, started | rfl⟩ | ⟨⟨c, k, hp⟩, rfl⟩ | ⟨r, k, -, rfl⟩ | ⟨⟨e, o, hp⟩, rfl⟩ := seqTurn_cases h
  · exact started.ends hT
  · exact abort_endsIdle _ _ s
  · exact seqFinish_call_ends hT hp
  · exact seqFinish_ends_of_next (resume_next r k s) hT
  · rw [seqFinish_raise hp]; exact abort_endsIdle e o s

/-- Settles O51: one case for each way SEQ's turn can go. -/
theorem seqStepEndsInTakeOrIdle : Obligations.SeqStepEndsInTakeOrIdle := by
  intro s s' ts ht h
  have hwf := step_wf h
  exact seqTurn_ends (s := { s with turns := ts }) (timeoutTicks_pos hwf) ((step_seq hwf ht).symm.trans h)

/-! ### The frame of an instruction -/

/-- What every part of a SEQ step leaves as it was. -/
structure SeqFrame (s s' : State) : Prop where
  cfg : s'.cfg = s.cfg
  hostop : s'.hostop = s.hostop
  hdata : s'.hdata = s.hdata
  img : s'.img = s.img
  fault : s'.fault = s.fault
  turns : s'.turns = s.turns
  txlog : s.txlog <+: s'.txlog
  plog : s.plog <+: s'.plog

theorem SeqFrame.trans {s₁ s₂ s₃ : State} (h : SeqFrame s₁ s₂) (h' : SeqFrame s₂ s₃) : SeqFrame s₁ s₃ :=
  ⟨h'.cfg.trans h.cfg, h'.hostop.trans h.hostop, h'.hdata.trans h.hdata, h'.img.trans h.img, h'.fault.trans h.fault,
    h'.turns.trans h.turns, h.txlog.trans h'.txlog, h.plog.trans h'.plog⟩

theorem seqFinish_frame (s : State) : SeqFrame s (seqFinish s) :=
  ⟨seqFinish_cfg s, seqFinish_hostop s, seqFinish_hdata s, seqFinish_img s, seqFinish_fault s, seqFinish_turns s,
    seqFinish_txlog s, seqFinish_plog s⟩

theorem callCmd_frame (c : Cmd) (k : Resume) (s : State) : SeqFrame s (callCmd c k s) :=
  ⟨callCmd_cfg c k s, callCmd_hostop c k s, callCmd_hdata c k s, callCmd_img c k s, callCmd_fault c k s,
    callCmd_turns c k s, callCmd_txlog c k s, by simp⟩

theorem abort_frame (e : Err) (o : Owner) (s : State) : SeqFrame s (abort e o s) := by
  constructor <;> simp

theorem Next.frame {o : Owner} {s s' : State} (h : Next o s s') : SeqFrame s s' := by
  cases h with
  | goTo _ _ _ _ _ _ h => rw [h]; constructor <;> simp
  | raise _ _ _ h => rw [h]; constructor <;> simp
  | finish _ _ _ h => rw [h]; constructor <;> simp

theorem Started.frame {s s' : State} (h : Started s s') : SeqFrame s s' := by
  cases h with
  | completed o out h => rw [h]; constructor <;> simp
  | aborted e o h => rw [h]; exact abort_frame e o s
  | ran s₀ o evs hn h =>
    have opened : SeqFrame s { openSession s with plog := s.plog ++ evs } := by constructor <;> simp
    rw [h]
    exact (opened.trans hn.frame).trans (seqFinish_frame s₀)

/-- Settles O52: an instruction starts an operation or calls a wire command, and neither writes a framed field. -/
theorem instructionFrame : Obligations.InstructionFrame := by
  intro i s s' h
  have frame : SeqFrame s s' := by
    obtain started | ⟨_, k, -, c, -, rfl⟩ := exec_started h
    · exact started.frame
    · exact (callCmd_frame c k s).trans (seqFinish_frame _)
  exact ⟨frame.cfg, frame.hostop, frame.hdata, fun a => by rw [frame.img], frame.fault, frame.turns, frame.txlog, frame.plog⟩

/-! ### Reports -/

theorem abort_primitive_plog (e : Err) (s : State) : (abort e .primitive s).plog = s.plog := by
  simp [failureEvents]

theorem seqFinish_callCmd_plog {k : Resume} (ho : k.owner = .primitive) (c : Cmd) (s : State) :
    (seqFinish (callCmd c k s)).plog = s.plog := by
  obtain ⟨_, _, -, -, he⟩ | ⟨he, rests⟩ := callCmd_rests c k s
  · rw [he, seqFinish_raise rfl, ho, abort_primitive_plog, raise_plog]
  · rw [seqFinish_of_rests rests, callCmd_plog]

/-- The statements of a primitive operation report nothing, nor does the abort they may lead to. -/
theorem Next.plog_of_primitive {s s' : State} (h : Next .primitive s s') : (seqFinish s').plog = s.plog := by
  cases h with
  | goTo evs hev c k ho _ h =>
    rw [h, seqFinish_call rfl, seqFinish_callCmd_plog ho, goTo_plog, hev rfl, List.append_nil]
  | raise evs hev e h => rw [h, seqFinish_raise rfl, abort_primitive_plog, raise_plog, hev rfl, List.append_nil]
  | finish evs hev out h => rw [h, seqFinish_idle rfl, finish_plog, hev rfl, List.append_nil]

theorem exec_plog_of_primitive {i : Instr} {s s' : State} (h : exec i s = .next s') (hv : ∀ a, i ≠ .verify a)
    (hf : ∀ a, i ≠ .flash a) (hcall : ∀ c k, s.phase = .run (.call c k) → k.owner = .primitive) : s'.plog = s.plog := by
  obtain ⟨c, rfl⟩ | ⟨w, hi⟩ := instr_cases i
  · by_cases atSend : ∃ c' k, s.phase = .run (.call c' k)
    · obtain ⟨c', k, hp⟩ := atSend
      rw [exec_instr_of_call hp] at h
      cases h
      exact seqFinish_callCmd_plog (hcall c' k hp) c s
    · simp only [not_exists] at atSend
      rw [exec_instr_of_not_call atSend] at h
      cases h
  obtain ⟨s₁, hx, start⟩ := exec_hostStart hi s
  rw [hx] at h
  cases h
  cases start with
  | encode a | decodeOk a p => rfl
  | decodeError a x | writeTooLong a | crcWrongSize a => exact abort_primitive_plog _ s
  | readBlock a => exact (next_goTo (.read a) (.readBlock a) (openSession s) rfl rfl).plog_of_primitive
  | writeBlock a => exact (next_goTo (.write a s.hdata) (.writeBlock a) (openSession s) rfl rfl).plog_of_primitive
  | checkCrc a => exact (next_goTo (.write _ s.hdata) (.crcTable .checkCrc) (openSession s) rfl rfl).plog_of_primitive
  | verifyMissing a | verify a => exact absurd rfl (hv a)
  | flashMissing a | flash a => exact absurd rfl (hf a)

@[simp] theorem rxAppend_plog (b : Byte) (s : State) : (rxAppend b s).plog = s.plog := by
  obtain ⟨-, h⟩ | ⟨_, _, -, -, -, h⟩ | ⟨_, -, -, h⟩ := rxAppend_cases b s <;> rw [h]

@[simp] theorem timeTick_plog (s : State) : (timeTick s).plog = s.plog := by
  unfold timeTick
  split
  · exact poll_plog _ _ _ _
  all_goals rfl

/-- HOST, RXA and TIME report nothing. -/
theorem takeTurn_plog {t : Turn} {s s' : State} (hseq : t ≠ .seq) (hreset : t ≠ .reset) (h : takeTurn t s = .next s') :
    s'.plog = s.plog := by
  cases t with
  | issue w d m => obtain ⟨-, -, rfl⟩ := hostIssue_cases h; rfl
  | seq => exact absurd rfl hseq
  | rx b => cases h; exact rxAppend_plog b s
  | tick => cases h; exact timeTick_plog s
  | reset => exact absurd rfl hreset

/-- Settles O53: an instruction, a SEQ step after a take, and the turn of another agent. -/
theorem onlyVerifyAndFlashReport : Obligations.OnlyVerifyAndFlashReport := by
  refine ⟨fun i s s' h hv hf hcall => exec_plog_of_primitive h hv hf hcall, fun s s' r k ts ht h hp ho => ?_,
    fun s s' t ts ht hseq hreset h => ?_⟩
  · rw [step_seq_ret s r k ts (step_wf h) hp ht] at h
    cases h
    have next := resume_next r k { s with turns := ts }
    rw [ho] at next
    exact next.plog_of_primitive
  · exact takeTurn_plog (s := { s with turns := ts }) hseq hreset ((step_cons (step_wf h) ht).symm.trans h)

/-! ### Sends during a take -/

/-- In a wait SEQ has no turn, and no other agent sends. -/
theorem takeTurn_wait_txlog {t : Turn} {s s' : State} {n m : Nat} {k : Resume} (hp : s.phase = .wait n m k)
    (hreset : t ≠ .reset) (h : takeTurn t s = .next s') : s'.txlog = s.txlog := by
  cases t with
  | issue w d m => exact hostIssue_txlog h
  | seq => simp [takeTurn, seqTurn, fetch, hp] at h
  | rx b => cases h; exact rxAppend_txlog b s
  | tick => cases h; exact timeTick_txlog s
  | reset => exact absurd rfl hreset

/-- Settles O55: a response is outstanding only in a wait. -/
theorem noSendWhileResponseOutstanding : Obligations.NoSendWhileResponseOutstanding := by
  intro s s' n t k hp h noReset
  obtain ⟨-, he⟩ | ⟨turn, ts, ht, he⟩ := step_turn s (step_wf h)
  · exact takeTurn_wait_txlog hp (defaultTurn_ne_reset s) (he.symm.trans h)
  · have ne : turn ≠ .reset := fun hr => noReset ts (hr ▸ ht)
    exact takeTurn_wait_txlog (s := { s with turns := ts }) hp ne (he.symm.trans h)

end Sys2Proof.Machine
end

section
/-! The machine's invariant (State.Inv): the reset state meets it and every step of every agent keeps it. A SEQ step is
followed through the states inside it, where SEQ may stand at a `Send`. -/

namespace Sys2Proof.Machine

/-! ### States outside and inside a session -/

/-- The latches, which every idle state and every running one must keep in form. -/
structure State.Latched (s : State) : Prop where
  img_wf : s.img.wf = true
  hdata_le : s.hdata.length ≤ s.cfg.hdataMax

theorem State.Inv.latched {s : State} (h : s.Inv) : s.Latched := ⟨h.img_wf, h.hdata_le⟩

/-- An idle state without a session meets the invariant. -/
theorem inv_of_idle {s : State} (h : s.Latched) (hp : s.phase = .idle) (hbusy : s.busy = false) (hs : s.session = none) :
    s.Inv where
  busy_iff := by simp [hbusy, hp]
  done_not_busy _ := hbusy
  session_iff := by simp [State.sess, hs, hp, Phase.inSession]
  baud_eq := by simp [hs]
  outputs_clear := by simp [hbusy]
  img_wf := h.img_wf
  hdata_le := h.hdata_le
  rx_le := by simp [rxq_of_none hs]
  sent := by simp [hp, Phase.pending]
  phase_fits := by simp [hp, Phase.fits]

/-- What the invariant says of a state inside a session, but for SEQ's control point and the last send. -/
structure State.Running (s : State) : Prop extends s.Latched where
  busy : s.busy = true
  done : s.done = false
  opened : ∃ q, s.session = some q ∧ q.baud = Config.baud ∧ ∀ cap, s.cfg.rxCapacity = some cap → q.rxq.length ≤ cap
  outputs : s.result = 0 ∧ s.rdata = []

/-- The last bytes sent are the wire form of the command awaited at `k`. -/
def State.Awaits (s : State) (k : Resume) : Prop :=
  s.txlog.getLast? = some (wireForm s.cfg (cmdBytes s.cfg (k.awaits s.cfg s.hdata)))

/-- The logs and SEQ's control point stand in none of these conditions. -/
theorem State.Running.with_logs_phase {s : State} (h : s.Running) (tx : List (List Byte)) (pl : List Progress) (ph : Phase) :
    State.Running { s with txlog := tx, plog := pl, phase := ph } :=
  ⟨⟨h.img_wf, h.hdata_le⟩, h.busy, h.done, h.opened, h.outputs⟩

theorem State.Latched.with_logs_phase {s : State} (h : s.Latched) (tx : List (List Byte)) (pl : List Progress) (ph : Phase) :
    State.Latched { s with txlog := tx, plog := pl, phase := ph } :=
  ⟨h.img_wf, h.hdata_le⟩

theorem State.Inv.running {s : State} (h : s.Inv) (hp : s.phase.inSession = true) : s.Running := by
  have busy : s.busy = true := h.busy_of_session (h.session_iff.trans hp)
  obtain ⟨q, hq⟩ := Option.isSome_iff_exists.mp (h.session_iff.trans hp)
  refine ⟨h.latched, busy, ?_, ⟨q, hq, h.baud_eq q hq, ?_⟩, h.outputs_clear busy⟩
  · exact Bool.eq_false_iff.mpr fun done => by simp [h.done_not_busy done] at busy
  · rw [← rxq_of_session hq]
    exact h.rx_le

theorem inv_of_running {s : State} (h : s.Running) (hp : s.phase.inSession = true)
    (hsent : ∀ k, s.phase.pending = some k → s.Awaits k) (hfits : s.phase.fits s.cfg) : s.Inv := by
  obtain ⟨q, hq, baud, room⟩ := h.opened
  exact
    { busy_iff := iff_of_true h.busy fun idle => by rw [idle] at hp; cases hp
      done_not_busy := fun done => by rw [h.done] at done; cases done
      session_iff := by rw [State.sess, hq, hp]; rfl
      baud_eq := fun q' hq' => by rw [hq] at hq'; cases hq'; exact baud
      outputs_clear := fun _ => h.outputs
      img_wf := h.img_wf
      hdata_le := h.hdata_le
      rx_le := by rw [rxq_of_session hq]; exact room
      sent := hsent
      phase_fits := hfits }

theorem abort_inv {s : State} (h : s.Latched) (e : Err) (o : Owner) : (abort e o s).Inv :=
  inv_of_idle ⟨by simpa using h.img_wf, by simpa using h.hdata_le⟩ (by simp) (by simp) (by simp)

theorem complete_inv {s : State} (h : s.Latched) (hs : s.session = none) (o : OpOutcome) (out : List Byte) :
    (complete o out s).Inv :=
  inv_of_idle ⟨h.img_wf, h.hdata_le⟩ rfl rfl hs

theorem finish_inv {s : State} (h : s.Latched) (out : List Byte) : (finish out s).Inv :=
  inv_of_idle ⟨h.img_wf, h.hdata_le⟩ rfl rfl rfl

/-- Every way a poll of the right size can end meets the invariant. -/
theorem poll_inv {k : Resume} {s : State} (h : s.Running) (hsent : s.Awaits k) (hfits : k.fits s.cfg.map) (t : Nat) :
    (poll k.expects t k s).Inv := by
  obtain ⟨q, hq, baud, room⟩ := h.opened
  obtain ⟨enough, he⟩ | ⟨-, -, he⟩ | ⟨-, early, he⟩ := poll_cases k.expects t k s
  · rw [he, setRxq_of_session hq]
    refine inv_of_running ⟨⟨h.img_wf, h.hdata_le⟩, h.busy, h.done, ⟨_, rfl, baud, fun cap hc => ?_⟩, h.outputs⟩ rfl ?_
      ⟨List.length_take_of_le enough, hfits⟩
    · rw [rxq_of_session hq]
      exact (List.drop_sublist _ _).length_le.trans (room cap hc)
    · rintro _ ⟨⟩
      exact hsent
  · rw [he]
    exact inv_of_running (h.with_logs_phase _ _ _) rfl (by rintro _ ⟨⟩; exact hsent) hfits
  · rw [he]
    exact inv_of_running (h.with_logs_phase _ _ _) rfl (by rintro _ ⟨⟩; exact hsent)
      ⟨rfl, early, hfits⟩

/-! ### Where SEQ's own statements lead -/

/-- Where SEQ stands at a `Send`, the command is the one awaited at the resume point, whose registers agree. -/
def State.CallFits (s : State) : Prop :=
  ∀ c k, s.phase = .run (.call c k) → c = k.awaits s.cfg s.hdata ∧ k.fits s.cfg.map

theorem callFits_goTo {k : Resume} {s : State} (h : k.fits s.cfg.map) : (goTo (k.awaits s.cfg s.hdata) k s).CallFits := by
  rintro c k' ⟨⟩
  exact ⟨rfl, h⟩

theorem callFits_raise (e : Err) (o : Owner) (s : State) : (raise e o s).CallFits := nofun

theorem callFits_finish (out : List Byte) (s : State) : (finish out s).CallFits := nofun

/-- The table `CheckCrc` is called with: HDATA, or the loaded one. -/
def CrcUser.table (hdata : List Byte) : CrcUser → List Byte
  | .checkCrc => hdata
  | .flash img => img.crct

theorem startCheckCrc_callFits {u : CrcUser} {s : State} (h : u.fits s.cfg.map) :
    (startCheckCrc (u.table s.hdata) u s).CallFits := by
  unfold startCheckCrc
  split
  · have cmd : .write s.cfg.map.crcStart (u.table s.hdata) = (Resume.crcTable u).awaits s.cfg s.hdata := by cases u <;> rfl
    rw [cmd]
    exact callFits_goTo (k := .crcTable u) h
  · exact callFits_raise _ _ _

theorem comparePass_callFits (p : Pass) (V : List Byte) (img : Image) (s : State) : (comparePass p V img s).CallFits := by
  unfold comparePass
  split
  · exact callFits_raise _ _ _
  · exact callFits_finish _ _

theorem readLoop_callFits {p : Pass} {A : BitVec 17} {V : List Byte} {img : Image} {s : State} (himg : img.fits s.cfg.map)
    (hA : A.toNat = (p.first s.cfg.map).toNat + V.length) (hV : 64 ∣ V.length) : (readLoop p A V img s).CallFits := by
  by_cases within : A.toNat ≤ (p.last s.cfg.map).toNat
  · rw [readLoop_of_le within]
    exact callFits_goTo (k := .rangeRead p A V img) ⟨himg, hA, hV, within⟩
  · rw [readLoop_of_gt (Nat.lt_of_not_le within)]
    exact comparePass_callFits p V img s

theorem startVerifyRange_callFits {p : Pass} {img : Image} {s : State} (himg : img.fits s.cfg.map) :
    (startVerifyRange p img s).CallFits :=
  readLoop_callFits (s := report .verifyStart s) himg (counterAt_toNat _) (Nat.dvd_zero 64)

theorem writeLoop_callFits {A : BitVec 17} {K : Nat} {img : Image} {s : State} (himg : img.fits s.cfg.map)
    (hA : A.toNat = s.cfg.map.appStart.toNat + K) (hK : 64 ∣ K) : (writeLoop A K img s).CallFits := by
  by_cases more : K < img.app.length
  · rw [writeLoop_of_lt more]
    exact callFits_goTo (k := .flashWrite A K img) ⟨himg, hA, hK, more⟩
  · rw [writeLoop_of_ge (Nat.le_of_not_lt more)]
    exact startCheckCrc_callFits (u := .flash img) (s := report .writeDone s) himg

theorem blockOf_length {r : List Byte} (h : r.length = Config.readResp) : (blockOf r).length = 64 := by
  simp [blockOf, h, Config.readResp, Config.block]

/-- The next block of a range: 64 bytes more read, the counter 64 further. -/
theorem rangeRead_advance {map : MemMap} {p : Pass} {A : BitVec 17} {V r : List Byte} {img : Image}
    (h : (Resume.rangeRead p A V img).fits map) (hr : r.length = Config.readResp) :
    (counterNext A).toNat = (p.first map).toNat + (V ++ blockOf r).length ∧ 64 ∣ (V ++ blockOf r).length := by
  obtain ⟨-, hA, hV, hlast⟩ := h
  have small : A.toNat < 65536 := hlast.trans_lt (p.last map).isLt
  rw [counterNext_toNat small, List.length_append, blockOf_length hr]
  exact ⟨by omega, (Nat.dvd_add_right hV).mpr (dvd_refl 64)⟩

/-- The next chunk of the application region: the counter and the offset 64 further. -/
theorem flashWrite_advance {map : MemMap} {A : BitVec 17} {K : Nat} {img : Image}
    (h : (Resume.flashWrite A K img).fits map) :
    (counterNext A).toNat = map.appStart.toNat + (K + Config.block) ∧ 64 ∣ K + Config.block := by
  obtain ⟨⟨app, -, -⟩, hA, hK, more⟩ := h
  have last := map.appEnd.isLt
  rw [counterNext_toNat (by omega), Config.block]
  exact ⟨by omega, (Nat.dvd_add_right hK).mpr (dvd_refl 64)⟩

theorem proceed_callFits {k : Resume} {r : List Byte} {s : State} (hk : k.fits s.cfg.map) (hr : r.length = k.expects) :
    (proceed k r s).CallFits := by
  cases k with
  | readBlock a => exact callFits_finish _ _
  | writeBlock a => exact callFits_finish _ _
  | crcTable u => exact callFits_goTo (k := .crcStatus u) hk
  | crcStatus u =>
    cases u with
    | checkCrc => exact callFits_finish _ _
    | flash img => exact startVerifyRange_callFits hk
  | rangeRead p A V img =>
    obtain ⟨hA, hV⟩ := rangeRead_advance hk hr
    exact readLoop_callFits (s := report .dot s) hk.1 hA hV
  | flashWrite A K img =>
    obtain ⟨hA, hK⟩ := flashWrite_advance hk
    exact writeLoop_callFits (s := report .dot s) hk.1 hA hK

theorem resume_callFits {r : TakeResult} {k : Resume} {s : State} (h : (Phase.run (.ret r k)).fits s.cfg) :
    (resume r k s).CallFits := by
  unfold resume
  obtain ⟨rfl, hcheck⟩ | ⟨bytes, rfl, -, hcheck⟩ | ⟨bytes, rfl, -, hcheck⟩ := check_cases (k.error s.cfg) r
  · rw [hcheck]; exact callFits_raise _ _ _
  · rw [hcheck]; exact proceed_callFits h.2 h.1
  · rw [hcheck]; exact callFits_raise _ _ _

/-! ### SEQ's turn -/

theorem exchange_inv {c : Cmd} {k : Resume} {s : State} (h : s.Running) (hc : c = k.awaits s.cfg s.hdata)
    (he : k.expects = respLen c) (hk : k.fits s.cfg.map) : (exchange c k s).Inv := by
  have sent : (send c s).Awaits k := by
    rw [State.Awaits, send_txlog, List.getLast?_concat, hc]
    rfl
  rw [exchange, ← he]
  exact poll_inv (s := send c s) (h.with_logs_phase _ _ _) sent hk 0

/-- The rest of a SEQ step leads to a state of the invariant. -/
theorem seqFinish_inv {o : Owner} {s s' : State} (hn : Next o s s') (h : s.Running) (hc : s'.CallFits) :
    (seqFinish s').Inv := by
  cases hn with
  | goTo evs _ c k _ he hs' =>
    subst hs'
    obtain ⟨hcmd, hk⟩ := hc c k rfl
    rw [seqFinish_call rfl]
    obtain ⟨_, _, -, -, hcall⟩ | ⟨hcall, rests⟩ :=
      callCmd_rests c k (Machine.goTo c k { s with plog := s.plog ++ evs })
    · rw [hcall, seqFinish_raise rfl]
      exact abort_inv (h.toLatched.with_logs_phase _ _ _) _ _
    · rw [seqFinish_of_rests rests, hcall]
      exact exchange_inv (h.with_logs_phase _ _ _) hcmd he hk
  | raise evs _ e hs' =>
    rw [hs', seqFinish_raise rfl]
    exact abort_inv (h.toLatched.with_logs_phase _ _ _) _ _
  | finish evs _ out hs' =>
    rw [hs', seqFinish_idle rfl]
    exact finish_inv (h.toLatched.with_logs_phase _ _ _) out

/-- At the start of an operation there is no session. -/
theorem State.Inv.session_none {s : State} (h : s.Inv) (hp : s.phase.inSession = false) : s.session = none :=
  Option.not_isSome_iff_eq_none.mp (by rw [← State.sess, h.session_iff, hp]; decide)

/-- `Open` at the start of an operation. -/
theorem State.Inv.openSession_running {s : State} (h : s.Inv) (hp : s.phase = .run .start) : (openSession s).Running := by
  have busy : s.busy = true := h.busy_iff.mpr (by rw [hp]; nofun)
  refine ⟨⟨h.img_wf, h.hdata_le⟩, busy, ?_, ⟨_, rfl, rfl, fun cap _ => Nat.zero_le cap⟩, h.outputs_clear busy⟩
  exact Bool.eq_false_iff.mpr fun done => by simp [h.done_not_busy done] at busy

/-- The first step of an operation. -/
theorem HostStart.inv {i : Instr} {s s' : State} (h : s.Inv) (hwf : s.cfg.wf = true) (hp : s.phase = .run .start)
    (start : HostStart s i s') : s'.Inv := by
  have closed : s.session = none := h.session_none (by rw [hp]; rfl)
  have running := h.openSession_running hp
  cases start with
  | encode a | decodeOk a p => exact complete_inv h.latched closed _ _
  | decodeError a x | writeTooLong a | crcWrongSize a | verifyMissing a | flashMissing a => exact abort_inv h.latched _ _
  | readBlock a =>
    exact seqFinish_inv (next_goTo (.read a) (.readBlock a) _ rfl rfl) running
      (callFits_goTo (k := .readBlock a) (s := openSession s) trivial)
  | writeBlock a =>
    exact seqFinish_inv (next_goTo (.write a s.hdata) (.writeBlock a) _ rfl rfl) running
      (callFits_goTo (k := .writeBlock a) (s := openSession s) trivial)
  | checkCrc a =>
    exact seqFinish_inv (next_goTo (.write _ s.hdata) (.crcTable .checkCrc) _ rfl rfl) running
      (callFits_goTo (k := .crcTable .checkCrc) (s := openSession s) trivial)
  | verify a img loaded =>
    exact seqFinish_inv (startVerifyRange_next _ _ _) running
      (startVerifyRange_callFits (s := openSession s) (load_fits (map_wf hwf) loaded))
  | flash a img loaded =>
    exact seqFinish_inv (writeLoop_next _ _ _ _) (running.with_logs_phase _ _ _)
      (writeLoop_callFits (s := report _ (openSession s)) (load_fits (map_wf hwf) loaded) (counterAt_toNat _)
        (Nat.dvd_zero 64))

theorem seqTurn_inv {s s' : State} (h : s.Inv) (hwf : s.cfg.wf = true) (hx : seqTurn s = .next s') : s'.Inv := by
  have fits := h.phase_fits
  cases hp : s.phase with
  | idle => simp [seqTurn, fetch, hp] at hx
  | wait n t k => simp [seqTurn, fetch, hp] at hx
  | run p =>
    cases p with
    | call c k => rw [hp] at fits; exact fits.elim
    | raise e o => rw [hp] at fits; exact fits.elim
    | start =>
      cases hd : decode s.cfg.ragged (.host s.hostop) with
      | ok i =>
        obtain ⟨s₁, hexec, start⟩ := exec_hostStart (encode_of_decodeHost hd) s
        rw [seqTurn_start hp hd, hexec] at hx
        cases hx
        exact start.inv h hwf hp
      | error x =>
        rw [seqTurn_reserved hp hd] at hx
        cases hx
        exact abort_inv h.latched _ _
    | ret r k =>
      rw [seqTurn_ret hp] at hx
      cases hx
      exact seqFinish_inv (resume_next r k s) (h.running (by rw [hp]; rfl)) (resume_callFits (hp ▸ fits))

/-! ### The other agents' turns -/

/-- The agenda and FAULT stand in no condition of the invariant. -/
theorem State.Inv.with_turns_fault {s : State} (h : s.Inv) (ts : List Turn) (f : Bool) :
    State.Inv { s with turns := ts, fault := f } :=
  ⟨h.busy_iff, h.done_not_busy, h.session_iff, h.baud_eq, h.outputs_clear, h.img_wf, h.hdata_le, h.rx_le, h.sent,
    h.phase_fits⟩

/-- An issue finds SEQ idle, so no session is open, and latches a canonical map. -/
theorem hostIssue_inv {w : BitVec 32} {d : List Byte} {m : List (Addr × Byte)} {s s' : State} (h : s.Inv)
    (hx : hostIssue w d m s = .next s') : s'.Inv := by
  obtain ⟨notBusy, size, rfl⟩ := hostIssue_cases hx
  have idle : s.phase = .idle := by
    by_contra running
    rw [h.busy_iff.mpr running] at notBusy
    cases notBusy
  have closed : s.session = none := h.session_none (by rw [idle]; rfl)
  exact
    { busy_iff := iff_of_true rfl nofun
      done_not_busy := nofun
      session_iff := by rw [State.sess, accept_session, closed]; rfl
      baud_eq := by simp [closed]
      outputs_clear := fun _ => ⟨rfl, rfl⟩
      img_wf := ofPairs_wf m
      hdata_le := size
      rx_le := h.rx_le
      sent := nofun
      phase_fits := trivial }

/-- A byte that is stored found room in the buffer. -/
theorem rxAppend_inv {s : State} (h : s.Inv) (b : Byte) : (rxAppend b s).Inv := by
  obtain ⟨-, he⟩ | ⟨_, _, -, -, -, he⟩ | ⟨q, hq, room, he⟩ := rxAppend_cases b s
  · rw [he]; exact h
  · rw [he]; exact h.with_turns_fault s.turns true
  · rw [he]
    have inSession : s.phase.inSession = true := by rw [← h.session_iff, State.sess, hq]; rfl
    have running := h.running inSession
    have opened : ∀ cap, s.cfg.rxCapacity = some cap → (q.rxq ++ [b]).length ≤ cap := by
      intro cap hc
      rw [List.length_append]
      exact room cap hc
    exact inv_of_running
      ⟨⟨h.img_wf, h.hdata_le⟩, running.busy, running.done, ⟨_, rfl, h.baud_eq q hq, opened⟩, running.outputs⟩ inSession h.sent
      h.phase_fits

theorem timeTick_inv {s : State} (h : s.Inv) : (timeTick s).Inv := by
  cases hp : s.phase with
  | idle => rw [timeTick_of_not_wait (by rw [hp]; nofun)]; exact h
  | run p => rw [timeTick_of_not_wait (by rw [hp]; nofun)]; exact h
  | wait n t k =>
    have fits := h.phase_fits
    rw [hp] at fits
    obtain ⟨rfl, -, hk⟩ := fits
    rw [timeTick_wait hp]
    exact poll_inv (h.running (by rw [hp]; rfl)) (h.sent k (by rw [hp]; rfl)) hk (t + 1)

/-- The state after a reset meets the invariant, whatever the configuration and the agenda. -/
theorem resetTurn_inv (s : State) : (resetTurn s).Inv :=
  inv_of_idle ⟨reset_img_wf, Nat.zero_le _⟩ rfl rfl rfl

theorem takeTurn_inv {t : Turn} {s s' : State} (h : s.Inv) (hwf : s.cfg.wf = true) (hx : takeTurn t s = .next s') :
    s'.Inv := by
  cases t with
  | issue w d m => exact hostIssue_inv h hx
  | seq => exact seqTurn_inv h hwf hx
  | rx b => cases hx; exact rxAppend_inv h b
  | tick => cases hx; exact timeTick_inv h
  | reset => cases hx; exact resetTurn_inv s

/-! ### The obligations -/

/-- Settles O56: the reset state is what a reset turn leaves of it. -/
theorem resetMeetsInvariant : Obligations.ResetMeetsInvariant := resetTurn_inv State.reset

/-- Settles O57: a step is one agent's turn, and each agent's turn keeps the invariant. -/
theorem stepKeepsInvariant : Obligations.StepKeepsInvariant := by
  intro s s' h hx
  have hwf := step_wf hx
  obtain ⟨-, he⟩ | ⟨t, ts, -, he⟩ := step_turn s hwf
  · exact takeTurn_inv h hwf (he.symm.trans hx)
  · exact takeTurn_inv (h.with_turns_fault ts s.fault) hwf (he.symm.trans hx)

end Sys2Proof.Machine
end

section
/-! A running operation completes (44_orchestrator.md R136): with an empty agenda each SEQ step completes, waits for more than
the buffer holds, or shortens the buffer, and a wait ends by its ticks. -/

namespace Sys2Proof.Machine

/-- An operation has completed, and its session is closed. -/
structure State.Completed (s : State) : Prop where
  idle : s.phase = .idle
  not_busy : s.busy = false
  is_done : s.done = true
  closed : s.session = none

theorem abort_completed (e : Err) (o : Owner) (s : State) : (abort e o s).Completed := by
  constructor <;> simp

theorem finish_completed (out : List Byte) (s : State) : (finish out s).Completed := ⟨rfl, rfl, rfl, rfl⟩

/-- `s` completes within `n` steps. -/
def CompletesWithin (n : Nat) (s : State) : Prop := ∃ m s', m ≤ n ∧ runSteps m s = .next s' ∧ s'.Completed

theorem State.Completed.within {s : State} (h : s.Completed) (n : Nat) : CompletesWithin n s :=
  ⟨0, s, Nat.zero_le n, rfl, h⟩

theorem CompletesWithin.mono {n n' : Nat} {s : State} (h : CompletesWithin n s) (hle : n ≤ n') : CompletesWithin n' s := by
  obtain ⟨m, s', hm, run, completed⟩ := h
  exact ⟨m, s', hm.trans hle, run, completed⟩

theorem CompletesWithin.of_step {n : Nat} {s s₁ : State} (hstep : step s = .next s₁) (h : CompletesWithin n s₁) :
    CompletesWithin (n + 1) s := by
  obtain ⟨m, s', hm, run, completed⟩ := h
  exact ⟨m + 1, s', Nat.succ_le_succ hm, (runSteps_succ hstep m).trans run, completed⟩

/-! ### What a SEQ step achieves -/

/-- What a SEQ step that began with `b` bytes buffered has achieved in `s`: completion, a take that waits for more bytes than
there are, or one that has taken some. -/
inductive Progressed (b : Nat) (s : State) : Prop where
  | completed (h : s.Completed)
  | waits (n : Nat) (k : Resume) (hp : s.phase = .wait n 0 k) (short : s.rxq.length < n)
  | took (r : List Byte) (k : Resume) (hp : s.phase = .run (.ret (.ok r) k)) (fewer : s.rxq.length < b)

theorem exchange_progressed {c : Cmd} {k : Resume} {s : State} (hT : 1 ≤ s.cfg.timeoutTicks) :
    Progressed s.rxq.length (exchange c k s) := by
  have buffer : (send c s).rxq = s.rxq := rxq_congr (send_session c s)
  obtain ⟨enough, he⟩ | ⟨-, late, -⟩ | ⟨short, -, he⟩ := poll_cases (respLen c) 0 k (send c s)
  · have pos := respLen_pos c
    have inSession : (send c s).session ≠ none := by
      intro closed
      rw [rxq_of_none closed, List.length_nil] at enough
      omega
    refine .took ((send c s).rxq.take (respLen c)) k (by rw [exchange, he]) ?_
    have rest : (exchange c k s).rxq = s.rxq.drop (respLen c) := by
      rw [exchange, he, ← buffer]
      exact rxq_setRxq _ inSession
    rw [buffer] at enough
    rw [rest, List.length_drop]
    omega
  · exact absurd hT (Nat.not_le.mpr (Nat.lt_succ_of_le late))
  · exact .waits (respLen c) k (by rw [exchange, he]) (by rw [exchange, he]; exact short)

theorem seqFinish_progressed {o : Owner} {s s' : State} (hn : Next o s s') (hT : 1 ≤ s.cfg.timeoutTicks) :
    Progressed s.rxq.length (seqFinish s') := by
  cases hn with
  | goTo evs _ c k _ _ h =>
    rw [h, seqFinish_call rfl]
    obtain ⟨_, _, -, -, he⟩ | ⟨he, rests⟩ := callCmd_rests c k (Machine.goTo c k { s with plog := s.plog ++ evs })
    · rw [he, seqFinish_raise rfl]
      exact .completed (abort_completed _ _ _)
    · rw [seqFinish_of_rests rests, he]
      exact exchange_progressed (s := Machine.goTo c k { s with plog := s.plog ++ evs }) hT
  | raise evs _ e h =>
    rw [h, seqFinish_raise rfl]
    exact .completed (abort_completed _ _ _)
  | finish evs _ out h =>
    rw [h, seqFinish_idle rfl]
    exact .completed (finish_completed _ _)

/-- At the start the buffer of the fresh session is empty, so nothing can be taken at once. -/
theorem Started.progressed {s s' : State} (h : Started s s') (closed : s.session = none) (hT : 1 ≤ s.cfg.timeoutTicks) :
    Progressed 0 s' := by
  cases h with
  | completed o out h => rw [h]; exact .completed ⟨rfl, rfl, rfl, closed⟩
  | aborted e o h => rw [h]; exact .completed (abort_completed e o s)
  | ran s₀ o evs hn h => rw [h]; exact seqFinish_progressed (s := { openSession s with plog := s.plog ++ evs }) hn hT

/-! ### Runs with an empty agenda -/

theorem step_nil_ret {s : State} {r : TakeResult} {k : Resume} (hwf : s.cfg.wf = true) (ht : s.turns = [])
    (hp : s.phase = .run (.ret r k)) : step s = .next (seqFinish (resume r k s)) :=
  (step_nil_of_run hwf hp ht).trans (seqTurn_ret hp)

theorem step_nil_wait {s : State} {n t : Nat} {k : Resume} (hwf : s.cfg.wf = true) (ht : s.turns = [])
    (hp : s.phase = .wait n t k) : step s = .next (poll n (t + 1) k s) := by
  have turn : defaultTurn s = .tick := by simp [defaultTurn, hp]
  rw [step_nil hwf ht, turn, takeTurn, timeTick_wait hp]

/-- A take that has timed out ends its operation at once. -/
theorem completes_of_timedOut {s : State} {k : Resume} (hwf : s.cfg.wf = true) (ht : s.turns = [])
    (hp : s.phase = .run (.ret .timedOut k)) : CompletesWithin 1 s := by
  refine .of_step (step_nil_ret hwf ht hp) (State.Completed.within ?_ 0)
  rw [resume_of_failure k s (.inl ⟨rfl, rfl⟩), seqFinish_raise rfl]
  exact abort_completed _ _ _

/-- A take that waits for more bytes than there are times out after the ticks left to it. -/
theorem completes_of_short_wait {s : State} {n t : Nat} {k : Resume} (hwf : s.cfg.wf = true) (ht : s.turns = [])
    (hp : s.phase = .wait n t k) (short : s.rxq.length < n) (left : Nat) (hleft : s.cfg.timeoutTicks = t + (left + 1)) :
    CompletesWithin (left + 2) s := by
  induction left generalizing s t with
  | zero =>
    refine .of_step (step_nil_wait hwf ht hp) ?_
    rw [poll_timedOut short hleft.le]
    exact completes_of_timedOut hwf ht rfl
  | succ left ih =>
    refine .of_step (step_nil_wait hwf ht hp) ?_
    rw [poll_wait short (by omega)]
    exact ih (s := { s with phase := .wait n (t + 1) k }) hwf ht rfl short (by dsimp only; omega)

/-- What follows a SEQ step that made progress, with `b` bytes buffered before it. -/
theorem completes_of_progressed {b bound : Nat} {s : State} (hwf : s.cfg.wf = true) (ht : s.turns = [])
    (h : Progressed b s) (hbound : s.cfg.timeoutTicks + 1 ≤ bound)
    (took : ∀ r k, s.phase = .run (.ret (.ok r) k) → s.rxq.length < b → CompletesWithin bound s) :
    CompletesWithin bound s := by
  cases h with
  | completed h => exact h.within bound
  | waits n k hp short =>
    have hT := timeoutTicks_pos hwf
    exact (completes_of_short_wait hwf ht hp short (s.cfg.timeoutTicks - 1) (by omega)).mono (by omega)
  | took r k hp fewer => exact took r k hp fewer

/-- A take that has returned, by induction on the bytes buffered: each further take that returns at once removes some. -/
theorem completes_of_ret {b : Nat} {s : State} {r : TakeResult} {k : Resume} (hwf : s.cfg.wf = true) (ht : s.turns = [])
    (hp : s.phase = .run (.ret r k)) (hb : s.rxq.length ≤ b) : CompletesWithin (s.cfg.timeoutTicks + b + 2) s := by
  induction b using Nat.strong_induction_on generalizing s r k with
  | h b ih =>
    have cfg : (seqFinish (resume r k s)).cfg = s.cfg := by simp
    have turns : (seqFinish (resume r k s)).turns = [] := by simp [ht]
    refine .of_step (step_nil_ret hwf ht hp) ?_
    refine completes_of_progressed (cfg ▸ hwf) turns (seqFinish_progressed (resume_next r k s) (timeoutTicks_pos hwf))
      (by rw [cfg]; omega) fun r' k' hp' fewer => ?_
    have rest := ih (b - 1) (by omega) (s := seqFinish (resume r k s)) (cfg ▸ hwf) turns hp' (by omega)
    rw [cfg] at rest
    exact rest.mono (by omega)

theorem Resume.expects_pos (k : Resume) : 1 ≤ k.expects := by
  cases k <;> simp [Resume.expects, Config.readResp, Config.writeResp, Config.crcResp]

/-- A take that waits: the next tick finds the bytes there, or the take times out. -/
theorem completes_of_wait {s : State} {n t : Nat} {k : Resume} (hwf : s.cfg.wf = true) (ht : s.turns = [])
    (hp : s.phase = .wait n t k) (hn : 1 ≤ n) (hlt : t < s.cfg.timeoutTicks) :
    CompletesWithin (s.cfg.timeoutTicks + s.rxq.length + 2) s := by
  by_cases short : s.rxq.length < n
  · exact (completes_of_short_wait hwf ht hp short (s.cfg.timeoutTicks - t - 1) (by omega)).mono (by omega)
  · have enough : n ≤ s.rxq.length := Nat.le_of_not_lt short
    have inSession : s.session ≠ none := by
      intro closed
      rw [rxq_of_none closed, List.length_nil] at enough
      omega
    have took := poll_enough (t := t + 1) (k := k) enough
    have rest : (poll n (t + 1) k s).rxq.length ≤ s.rxq.length - 1 := by
      have drop : (poll n (t + 1) k s).rxq = s.rxq.drop n := by rw [took]; exact rxq_setRxq _ inSession
      rw [drop, List.length_drop]
      omega
    have after := completes_of_ret (s := poll n (t + 1) k s) (r := .ok (s.rxq.take n)) (k := k) (by simpa using hwf)
      (by simpa using ht) (by rw [took]) rest
    rw [poll_cfg] at after
    exact (after.of_step (step_nil_wait hwf ht hp)).mono (by omega)

/-- The start of an operation. -/
theorem completes_of_start {s : State} (hwf : s.cfg.wf = true) (ht : s.turns = []) (hp : s.phase = .run .start)
    (closed : s.session = none) : CompletesWithin (s.cfg.timeoutTicks + 2) s := by
  have run := step_nil_of_run hwf hp ht
  have hT := timeoutTicks_pos hwf
  cases hd : decode s.cfg.ragged (.host s.hostop) with
  | error x =>
    rw [seqTurn_reserved hp hd] at run
    exact .of_step run ((abort_completed _ _ _).within _)
  | ok i =>
    rw [seqTurn_start hp hd] at run
    obtain ⟨s', hx, -⟩ := exec_hostStart (encode_of_decodeHost hd) s
    obtain started | ⟨_, _, hcall, -⟩ := exec_started hx
    · rw [hx] at run
      have cfg : s'.cfg = s.cfg := started.cfg_eq
      have turns : s'.turns = [] := started.frame.turns.trans ht
      refine .of_step run (completes_of_progressed (cfg ▸ hwf) turns (started.progressed closed hT) (by rw [cfg]) ?_)
      exact fun _ _ _ fewer => absurd fewer (Nat.not_lt_zero _)
    · rw [hp] at hcall
      cases hcall

/-- Settles O58: in the invariant a running operation stands at its start, in a take that waits or at one that has returned, and
each of these completes. -/
theorem runningOperationCompletes : Obligations.RunningOperationCompletes := by
  intro s inv hwf hbusy ht
  have running := inv.busy_iff.mp hbusy
  have fits := inv.phase_fits
  have within : CompletesWithin (s.cfg.timeoutTicks + s.rxq.length + 2) s := by
    cases hp : s.phase with
    | idle => exact absurd hp running
    | wait n t k =>
      rw [hp] at fits
      obtain ⟨rfl, early, -⟩ := fits
      exact completes_of_wait hwf ht hp k.expects_pos early
    | run p =>
      cases p with
      | start => exact (completes_of_start hwf ht hp (inv.session_none (by rw [hp]; rfl))).mono (by omega)
      | ret r k => exact completes_of_ret hwf ht hp le_rfl
      | call c k => rw [hp] at fits; exact fits.elim
      | raise e o => rw [hp] at fits; exact fits.elim
  obtain ⟨m, s', hm, run, completed⟩ := within
  exact ⟨m, s', hm, run, completed.idle, completed.not_busy, completed.is_done, completed.closed⟩

end Sys2Proof.Machine
end

section
/-! Whole runs of the host operations (42_block_primitives.md R112 to R114, 44_orchestrator.md R127 to R135): an exchange is
answered, refused with a status or left unanswered; the read pass and the write pass are exchanges in a row. -/

namespace Sys2Proof.Machine

open Claims (Accepted ended statusWord answer answerRead silence readBytes writeBytes readSends writeSends blocks
  firstDifference)

/-! ### From the start of an accepted operation -/

/-- The first step runs the latched operation. -/
theorem step_of_accepted {s : State} {w : BitVec 32} {ts : List Turn} {i : Instr} (h : Accepted s w (.seq :: ts))
    (hi : encode i = .host w) : step s = exec i { s with turns := ts } := by
  have code : decode s.cfg.ragged (.host s.hostop) = .ok i := by
    rw [h.word, ← hi]
    exact decodeEncodeAgree _ i (wf_of_encode_eq_host hi)
  rw [step_seq h.wf h.turns, seqTurn_start (s := { s with turns := ts }) h.at_start code]

/-- A session with nothing received, on a well-formed build with the unbounded buffer. -/
structure State.Fresh (s : State) : Prop where
  wf : s.cfg.wf = true
  unbounded : s.cfg.rxCapacity = none
  empty : s.session = some { baud := 57600, rxq := [] }

/-- `s` with its first turn taken and a session opened. -/
def State.opened (s : State) (ts : List Turn) : State := openSession { s with turns := ts }

theorem fresh_of_accepted {s : State} {w : BitVec 32} {ts ts' : List Turn} (h : Accepted s w ts) : (s.opened ts').Fresh :=
  ⟨h.wf, h.unbounded, rfl⟩

/-! ### One exchange -/

/-- `s` after `c` was sent and its take has returned, with the agenda `ts` left. -/
def State.exchanged (s : State) (c : Cmd) (ts : List Turn) : State :=
  { s with turns := ts, txlog := s.txlog ++ [wireForm s.cfg (cmdBytes s.cfg c)] }

theorem State.Fresh.exchanged {s : State} (h : s.Fresh) (c : Cmd) (ts : List Turn) : (s.exchanged c ts).Fresh :=
  ⟨h.wf, h.unbounded, h.empty⟩

theorem State.Fresh.report {s : State} (h : s.Fresh) (ev : Progress) : (report ev s).Fresh :=
  ⟨h.wf, h.unbounded, h.empty⟩

/-- The statements after a take set SEQ's control point without reading it. -/
theorem comparePass_with_phase (p : Pass) (V : List Byte) (img : Image) (s : State) (ph : Phase) :
    comparePass p V img { s with phase := ph } = comparePass p V img s := by
  cases hm : firstMismatch 0 (p.expected img) V <;> simp only [comparePass, hm] <;> rfl

theorem readLoop_with_phase (p : Pass) (A : BitVec 17) (V : List Byte) (img : Image) (s : State) (ph : Phase) :
    readLoop p A V img { s with phase := ph } = readLoop p A V img s := by
  by_cases within : A.toNat ≤ (p.last s.cfg.map).toNat
  · rw [readLoop_of_le within, readLoop_of_le (s := { s with phase := ph }) within]
    rfl
  · have past := Nat.lt_of_not_le within
    rw [readLoop_of_gt past, readLoop_of_gt (s := { s with phase := ph }) past, comparePass_with_phase]

theorem startCheckCrc_with_phase (t : List Byte) (u : CrcUser) (s : State) (ph : Phase) :
    startCheckCrc t u { s with phase := ph } = startCheckCrc t u s := by
  by_cases size : t.length = Config.block
  · rw [startCheckCrc_of_block size, startCheckCrc_of_block size]
    rfl
  · rw [startCheckCrc, startCheckCrc, if_neg size, if_neg size]
    rfl

theorem writeLoop_with_phase (A : BitVec 17) (K : Nat) (img : Image) (s : State) (ph : Phase) :
    writeLoop A K img { s with phase := ph } = writeLoop A K img s := by
  by_cases more : K < img.app.length
  · rw [writeLoop_of_lt more, writeLoop_of_lt more]
    rfl
  · have all := Nat.le_of_not_lt more
    rw [writeLoop_of_ge all, writeLoop_of_ge all]
    exact startCheckCrc_with_phase _ _ (report .writeDone s) ph

theorem proceed_with_phase (k : Resume) (r : List Byte) (s : State) (ph : Phase) :
    proceed k r { s with phase := ph } = proceed k r s := by
  cases k with
  | readBlock _ | writeBlock _ | crcTable _ => rfl
  | crcStatus u =>
    cases u with
    | checkCrc => rfl
    | flash img => exact readLoop_with_phase .settings _ _ _ (report .verifyStart s) ph
  | rangeRead p A V img => exact readLoop_with_phase p _ _ _ (report .dot s) ph
  | flashWrite A K img => exact writeLoop_with_phase _ _ _ (report .dot s) ph

/-- A take whose response does not arrive whole: whatever did arrive is discarded with the session. -/
theorem runSteps_unanswered {s : State} {n : Nat} {k : Resume} {r : List Byte} {ts : List Turn} (hwf : s.cfg.wf = true)
    (unbounded : s.cfg.rxCapacity = none) (hp : s.phase = .wait n 0 k)
    (hs : s.session = some { baud := 57600, rxq := [] }) (short : r.length < n)
    (ht : s.turns = silence s.cfg.timeoutTicks r ++ ts) :
    runSteps (r.length + (s.cfg.timeoutTicks + 1)) s =
      .next (abort (k.error s.cfg .timedOut) k.owner { s with turns := ts }) := by
  obtain ⟨m, hm⟩ : ∃ m, m + 1 = s.cfg.timeoutTicks := ⟨_, Nat.sub_add_cancel (timeoutTicks_pos hwf)⟩
  have agenda : s.turns = r.map .rx ++ (List.replicate (m + 1) .tick ++ .seq :: ts) := by rw [ht, hm]; simp [silence]
  rw [runSteps_add (runSteps_rx s _ r _ hwf unbounded hs agenda), ← hm,
    runSteps_add (runSteps_ticks _ _ n 0 m k (.seq :: ts) (by exact hwf) (by exact hp) rfl (by exact short)
      (by rw [Nat.zero_add]; exact hm) rfl),
    runSteps_succ (step_seq_ret _ .timedOut k ts (by exact hwf) rfl rfl), runSteps_zero,
    resume_of_failure k _ (.inl ⟨rfl, rfl⟩), seqFinish_raise rfl, abort_eq, abort_eq]
  rfl

section
variable {s : State} {c : Cmd} {k : Resume} {ts : List Turn}

/-- The whole response arrives before the first tick; the SEQ step after it begins with the check. -/
theorem runSteps_exchange (h : s.Fresh) (hc : ∀ a d, c = .write a d → d.length ≤ 64) {bs : List Byte}
    (hl : bs.length = respLen c) (ht : s.turns = bs.map .rx ++ .tick :: .seq :: ts) :
    runSteps (respLen c + 2) (seqFinish (goTo c k s)) =
      .next (seqFinish (resume (.ok bs) k { s.exchanged c ts with phase := .run (.ret (.ok bs) k) })) := by
  rw [seqFinish_goTo_fresh h.empty (timeoutTicks_pos h.wf) hc, ← hl]
  exact runSteps_answered _ _ bs 0 k ts h.wf h.unbounded rfl h.empty rfl ht

/-- An exchange answered with status 0x00. -/
theorem runSteps_exchange_ok (h : s.Fresh) (hc : ∀ a d, c = .write a d → d.length ≤ 64) {d : List Byte}
    (hl : (0 :: d).length = respLen c) (ht : s.turns = (0 :: d).map .rx ++ .tick :: .seq :: ts) :
    runSteps (respLen c + 2) (seqFinish (goTo c k s)) = .next (seqFinish (proceed k (0 :: d) (s.exchanged c ts))) := by
  rw [runSteps_exchange h hc hl ht, ← proceed_with_phase]
  rfl

/-- An exchange answered with another status. -/
theorem runSteps_exchange_status (h : s.Fresh) (hc : ∀ a d, c = .write a d → d.length ≤ 64) {st : Byte} {d : List Byte}
    (hst : st ≠ 0) (hl : (st :: d).length = respLen c) (ht : s.turns = (st :: d).map .rx ++ .tick :: .seq :: ts) :
    runSteps (respLen c + 2) (seqFinish (goTo c k s)) =
      .next (abort (k.error s.cfg (.status st)) k.owner (s.exchanged c ts)) := by
  rw [runSteps_exchange h hc hl ht, resume_of_failure k _ (.inr ⟨st, d, rfl, hst, rfl⟩), seqFinish_raise rfl, abort_eq,
    abort_eq]
  rfl

/-- An exchange whose response does not arrive whole. -/
theorem runSteps_exchange_silence (h : s.Fresh) (hc : ∀ a d, c = .write a d → d.length ≤ 64) {r : List Byte}
    (hl : r.length < respLen c) (ht : s.turns = silence s.cfg.timeoutTicks r ++ ts) :
    runSteps (r.length + (s.cfg.timeoutTicks + 1)) (seqFinish (goTo c k s)) =
      .next (abort (k.error s.cfg .timedOut) k.owner (s.exchanged c ts)) := by
  rw [seqFinish_goTo_fresh h.empty (timeoutTicks_pos h.wf) hc]
  refine (runSteps_unanswered (s := { s.exchanged c s.turns with phase := .wait (respLen c) 0 k }) h.wf h.unbounded rfl
    h.empty hl ht).trans ?_
  rw [abort_eq, abort_eq]
  rfl

/-- An aborted primitive operation has ended with its error. -/
theorem abort_primitive_eq_ended (e : Err) (s : State) : abort e .primitive s = ended s s.turns e.word [] := by
  rw [abort_eq, failureEvents, List.append_nil]
  rfl

/-- The answered exchange after which a primitive operation is done, with `out`, unless the status says otherwise. -/
theorem runSteps_last_exchange (h : s.Fresh) (hc : ∀ a d, c = .write a d → d.length ≤ 64) (hk : k.owner = .primitive)
    {st : Byte} {d out : List Byte} {code : BitVec 4} {a : Addr} (hl : (st :: d).length = respLen c)
    (ht : s.turns = (st :: d).map .rx ++ .tick :: .seq :: ts) (hout : ∀ s, proceed k (st :: d) s = finish out s)
    (hword : (k.error s.cfg (.status st)).word = packResult code false true st a) :
    runSteps (respLen c + 2) (seqFinish (goTo c k s)) = .next
      (ended (s.exchanged c ts) ts (statusWord code st a) (if st = 0 then out else [])) := by
  by_cases hst : st = 0
  · subst hst
    rw [runSteps_exchange_ok h hc hl ht, hout, seqFinish_idle rfl, statusWord, if_pos rfl, if_pos rfl]
    rfl
  · rw [runSteps_exchange_status h hc hst hl ht, hk, abort_primitive_eq_ended, hword, statusWord, if_neg hst, if_neg hst]
    rfl

/-- The unanswered exchange of a primitive operation. -/
theorem runSteps_last_silence (h : s.Fresh) (hc : ∀ a d, c = .write a d → d.length ≤ 64) (hk : k.owner = .primitive)
    {r : List Byte} (hl : r.length < respLen c) (ht : s.turns = silence s.cfg.timeoutTicks r ++ ts) :
    runSteps (r.length + (s.cfg.timeoutTicks + 1)) (seqFinish (goTo c k s)) = .next
      (ended (s.exchanged c ts) ts (k.error s.cfg .timedOut).word []) := by
  rw [runSteps_exchange_silence h hc hl ht, hk, abort_primitive_eq_ended]
  rfl

end

/-! ### The primitive operations -/

/-- The first step of a run. -/
theorem runSteps_of_accepted {s s' : State} {w : BitVec 32} {ts : List Turn} {i : Instr}
    (h : Accepted s w (.seq :: ts)) (hi : encode i = .host w) (hx : exec i { s with turns := ts } = .next s') (n : Nat) :
    runSteps (n + 1) s = runSteps n s' :=
  runSteps_succ ((step_of_accepted h hi).trans hx) n

/-- Settles O21: one READ, answered or unanswered. -/
theorem readBlockRuns : Obligations.ReadBlockRuns := by
  intro s a ts
  have start (ts' : List Turn) : exec (.readBlock a) { s with turns := ts' } =
      .next (seqFinish (goTo (.read a) (.readBlock a) (s.opened ts'))) := rfl
  refine ⟨fun st d hd h => ?_, fun r hr h => ?_⟩
  · have block : blockOf (st :: d) = d := List.take_of_length_le hd.le
    have size : (st :: d).length = respLen (.read a) := congrArg Nat.succ hd
    have last := runSteps_last_exchange (s := s.opened (answerRead st d ++ ts)) (c := .read a) (k := .readBlock a) (ts := ts)
      (fresh_of_accepted h) nofun rfl size (by simp [State.opened, answerRead]) (fun _ => rfl) rfl
    rw [block] at last
    exact (runSteps_of_accepted h rfl (start _) _).trans last
  · have last := runSteps_last_silence (s := s.opened (silence s.cfg.timeoutTicks r ++ ts)) (c := .read a) (k := .readBlock a)
      (fresh_of_accepted h) nofun rfl hr rfl
    have steps : s.cfg.timeoutTicks + r.length + 2 = r.length + (s.cfg.timeoutTicks + 1) + 1 := by omega
    rw [steps]
    exact (runSteps_of_accepted h rfl (start _) _).trans last

/-- Settles O22: one WRITE, answered or unanswered; a longer one ends at its size test. -/
theorem writeBlockRuns : Obligations.WriteBlockRuns := by
  intro s a ts
  have start (size : s.hdata.length ≤ 64) (ts' : List Turn) : exec (.writeBlock a) { s with turns := ts' } =
      .next (seqFinish (goTo (.write a s.hdata) (.writeBlock a) (s.opened ts'))) := exec_writeBlock_of_le size
  refine ⟨fun st size h => ?_, fun size h => ?_, fun size h => ?_⟩
  · have last := runSteps_last_exchange (s := s.opened (answer st ++ ts)) (c := .write a s.hdata)
      (k := .writeBlock a) (ts := ts) (d := []) (fresh_of_accepted h) (write_size_le size) rfl rfl rfl (fun _ => rfl) rfl
    rw [ite_self] at last
    exact (runSteps_of_accepted h rfl (start size _) _).trans last
  · have last := runSteps_last_silence (s := s.opened (silence s.cfg.timeoutTicks [] ++ ts)) (k := .writeBlock a) (r := [])
      (fresh_of_accepted h) (write_size_le size) rfl (respLen_pos (.write a s.hdata)) rfl
    rw [List.length_nil, Nat.zero_add] at last
    exact (runSteps_of_accepted h rfl (start size _) _).trans last
  · rw [runSteps_of_accepted h rfl (exec_writeBlock_of_gt size) 0, abort_primitive_eq_ended]
    rfl

/-- CHECK_CRC's table WRITE (42_block_primitives.md R109). -/
def tableWrite (s : State) : Cmd := .write s.cfg.map.crcStart s.hdata

section
variable {s : State} {addr : Addr} {ts : List Turn} (size : s.hdata.length = 64)
include size

theorem exec_checkCrc_opened : exec (.checkCrc addr) { s with turns := ts } =
    .next (seqFinish (goTo (tableWrite s) (.crcTable .checkCrc) (s.opened ts))) :=
  exec_checkCrc_of_block (s := { s with turns := ts }) size

/-- A table of one block is sent as it is. -/
theorem wireForm_tableWrite : wireForm s.cfg (cmdBytes s.cfg (tableWrite s)) =
    wireForm s.cfg ([0x04, 0x44, addrHi s.cfg.map.crcStart, addrLo s.cfg.map.crcStart] ++ s.hdata) :=
  congrArg (wireForm s.cfg) (writeBytes_of_length_block s.cfg _ size)

/-- Where the table WRITE succeeds, CHECK_CRC goes on to the CRC command. -/
theorem runSteps_checkCrc_table (h : Accepted s (hostWord addr 0x5) (.seq :: answer 0 ++ ts)) (n : Nat) :
    runSteps (3 + n + 1) s =
      runSteps n (seqFinish (goTo .crc (.crcStatus .checkCrc) ((s.opened (answer 0 ++ ts)).exchanged (tableWrite s) ts))) :=
  (runSteps_of_accepted h rfl (exec_checkCrc_opened size) _).trans <|
    runSteps_add (runSteps_exchange_ok (s := s.opened (answer 0 ++ ts)) (c := tableWrite s) (d := []) (fresh_of_accepted h)
      (write_size_le size.le) rfl rfl) n

/-- CHECK_CRC has ended after its table WRITE. -/
theorem ended_after_table (ts' : List Turn) (w : BitVec 32) :
    ended ((s.opened ts').exchanged (tableWrite s) ts) ts w [] = { ended s ts w [] with
      txlog := s.txlog ++
        [wireForm s.cfg ([0x04, 0x44, addrHi s.cfg.map.crcStart, addrLo s.cfg.map.crcStart] ++ s.hdata)] } := by
  rw [← wireForm_tableWrite size]
  rfl

/-- CHECK_CRC has ended after both its exchanges. -/
theorem ended_after_crc (ts' ts'' : List Turn) (w : BitVec 32) :
    ended (((s.opened ts').exchanged (tableWrite s) ts'').exchanged .crc ts) ts w [] = { ended s ts w [] with
      txlog := s.txlog ++
        [wireForm s.cfg ([0x04, 0x44, addrHi s.cfg.map.crcStart, addrLo s.cfg.map.crcStart] ++ s.hdata),
          wireForm s.cfg [0x03, 0x02]] } := by
  rw [← wireForm_tableWrite size, List.append_cons]
  rfl

end

/-- Settles O23: the table WRITE and, where its status is 0x00, the CRC exchange, each answered or unanswered; any other
size ends at its test. -/
theorem checkCrcRuns : Obligations.CheckCrcRuns := by
  rintro s addr ts table rfl
  refine ⟨fun st size h => ?_, fun size h => ?_, fun st hst size h => ?_, fun size h => ?_, fun size h => ?_⟩
  · have last := runSteps_last_exchange
      (s := (s.opened (answer 0 ++ (answer st ++ ts))).exchanged (tableWrite s) (answer st ++ ts))
      (c := .crc) (k := .crcStatus .checkCrc) (ts := ts) (d := []) ((fresh_of_accepted h).exchanged _ _) nofun rfl rfl rfl
      (fun _ => rfl) rfl
    rw [ite_self, ended_after_crc size] at last
    exact (runSteps_checkCrc_table size h _).trans last
  · have last := runSteps_last_silence
      (s := (s.opened (answer 0 ++ (silence s.cfg.timeoutTicks [] ++ ts))).exchanged (tableWrite s)
        (silence s.cfg.timeoutTicks [] ++ ts))
      (c := .crc) (k := .crcStatus .checkCrc) (r := []) ((fresh_of_accepted h).exchanged _ _) nofun rfl (respLen_pos .crc) rfl
    rw [List.length_nil, Nat.zero_add, ended_after_crc size] at last
    have steps : s.cfg.timeoutTicks + 5 = 3 + (s.cfg.timeoutTicks + 1) + 1 := by omega
    rw [steps]
    exact (runSteps_checkCrc_table size h _).trans last
  · have first := runSteps_exchange_status (s := s.opened (answer st ++ ts)) (c := tableWrite s) (k := .crcTable .checkCrc)
      (ts := ts) (d := []) (fresh_of_accepted h) (write_size_le size.le) hst rfl rfl
    rw [Resume.owner, abort_primitive_eq_ended] at first
    exact ((runSteps_of_accepted h rfl (exec_checkCrc_opened size) _).trans first).trans
      (congrArg _ (ended_after_table size _ _))
  · have first := runSteps_last_silence (s := s.opened (silence s.cfg.timeoutTicks [] ++ ts)) (c := tableWrite s)
      (k := .crcTable .checkCrc) (r := []) (fresh_of_accepted h) (write_size_le size.le) rfl (respLen_pos (tableWrite s)) rfl
    rw [List.length_nil, Nat.zero_add, ended_after_table size] at first
    exact (runSteps_of_accepted h rfl (exec_checkCrc_opened size) _).trans first
  · rw [runSteps_of_accepted h rfl (exec_checkCrc_of_ne size) 0, abort_primitive_eq_ended]
    rfl

end Sys2Proof.Machine
end

section
/-! Whole runs of VERIFY and FLASH (44_orchestrator.md R127 to R135): the read pass and the write pass as exchanges in a row,
and the comparison after the last block. -/

namespace Sys2Proof.Machine

open Claims (Accepted ended answer answerRead readBytes writeBytes readSends writeSends blocks firstDifference)

/-! ### The comparison (R129) -/

/-- The model's scan for the first mismatch, from index `i` on, is the search over the indices. -/
theorem firstMismatch_eq (i : Nat) (X V : List Byte) : firstMismatch i X V = (firstDifference X V).map (i + ·) := by
  induction X generalizing i V with
  | nil => rfl
  | cons x X ih =>
    cases V with
    | nil => simp [firstMismatch, firstDifference, List.range_succ_eq_map]
    | cons v V =>
      have rest : firstDifference (x :: X) (v :: V) = if v = x then (firstDifference X V).map (· + 1) else some 0 := by
        by_cases hv : v = x <;>
          simp [firstDifference, List.range_succ_eq_map, List.find?_map, hv]
      rw [rest]
      by_cases hv : v = x
      · simp [firstMismatch, hv, ih, Function.comp_def, Nat.add_comm, Nat.add_left_comm]
      · simp [firstMismatch, hv]

/-- How a verify pass ends: in OK, or in VerificationMismatch at the first differing address (R130, R131, R133). -/
theorem seqFinish_comparePass (p : Pass) (V : List Byte) (img : Image) (s : State) :
    seqFinish (comparePass p V img s) = match firstDifference (p.expected img) V with
      | none => finish [] (report .done s)
      | some i => abort (.verificationMismatch (addrAt (p.first s.cfg.map) i)) p.owner s := by
  have scan := firstMismatch_eq 0 (p.expected img) V
  cases hd : firstDifference (p.expected img) V with
  | none =>
    rw [hd] at scan
    simp only [comparePass, scan, Option.map_none]
    exact seqFinish_idle rfl
  | some i =>
    rw [hd] at scan
    simp only [comparePass, scan, Option.map_some, Nat.zero_add]
    rw [seqFinish_raise rfl, abort_eq, abort_eq]
    rfl

/-! ### The read pass (R127, R128) -/

/-- `s` after a pass of `n` exchanges that made the sends `sent` and reported a Dot for each, with the agenda `ts` left. -/
def State.passed (s : State) (sent : List (List Byte)) (n : Nat) (ts : List Turn) : State :=
  { s with turns := ts, txlog := s.txlog ++ sent, plog := s.plog ++ List.replicate n .dot }

theorem State.passed_nil (s : State) : s.passed [] 0 s.turns = s := by
  simp [State.passed]

/-- One exchange with its Dot, and then the rest of the pass. -/
theorem State.passed_cons (s : State) (c : Cmd) (sent : List (List Byte)) (n : Nat) (ts ts' : List Turn) :
    (report .dot (s.exchanged c ts')).passed sent n ts =
      s.passed (wireForm s.cfg (cmdBytes s.cfg c) :: sent) (n + 1) ts := by
  simp [State.passed, State.exchanged, report, List.replicate_succ]

/-- The sends of `n` commands of one pass, one every 64 bytes from the offset `off` on. -/
def sendsFrom (send : Nat → List Byte) (off n : Nat) : List (List Byte) := (List.range n).map fun j => send (off + 64 * j)

theorem sendsFrom_succ (send : Nat → List Byte) (off n : Nat) :
    sendsFrom send off (n + 1) = send off :: sendsFrom send (off + 64) n := by
  have shift (j : Nat) : off + 64 * (j + 1) = off + 64 + 64 * j := by omega
  simp [sendsFrom, List.range_succ_eq_map, Function.comp_def, shift]

/-- What a READ of the bytes at `off` after `a` sends. -/
def readSend (cfg : Config) (a : Addr) (off : Nat) : List Byte := wireForm cfg (readBytes (addrAt a off))

theorem sendsFrom_readSend (cfg : Config) (a : Addr) (n : Nat) : sendsFrom (readSend cfg a) 0 n = readSends cfg a n := by
  simp [sendsFrom, readSend, readSends]

/-- The read pass from the head of its loop, `V` read so far, against a device that answers with the blocks `bs`: a READ for
each, and then the comparison. -/
theorem runSteps_readPass {s : State} (h : s.Fresh) {p : Pass} {A : BitVec 17} {V : List Byte} {img : Image}
    {bs : List (List Byte)} {ts : List Turn} (hA : A.toNat = (p.first s.cfg.map).toNat + V.length)
    (hcount : bs.length = blocks ((p.last s.cfg.map).toNat + 1 - A.toNat)) (hsize : ∀ b ∈ bs, b.length = 64)
    (ht : s.turns = bs.flatMap (answerRead 0) ++ ts) :
    runSteps (67 * bs.length) (seqFinish (readLoop p A V img s)) = .next (seqFinish (comparePass p (V ++ bs.flatten) img
      (s.passed (sendsFrom (readSend s.cfg (p.first s.cfg.map)) V.length bs.length) bs.length ts))) := by
  induction bs generalizing s A V with
  | nil =>
    have past : (p.last s.cfg.map).toNat < A.toNat := by
      simp only [List.length_nil, blocks] at hcount
      omega
    have idle : s.passed [] 0 ts = s := by
      obtain rfl : s.turns = ts := ht
      exact s.passed_nil
    rw [readLoop_of_gt past]
    simp [sendsFrom, idle]
  | cons b bs ih =>
    have size : b.length = 64 := hsize b List.mem_cons_self
    have more : A.toNat ≤ (p.last s.cfg.map).toNat := by
      simp only [List.length_cons, blocks] at hcount
      omega
    have next : (counterNext A).toNat = A.toNat + 64 := counterNext_toNat (more.trans_lt (p.last s.cfg.map).isLt)
    have block : blockOf (0 :: b) = b := List.take_of_length_le size.le
    have one := runSteps_exchange_ok (k := .rangeRead p A V img) (ts := bs.flatMap (answerRead 0) ++ ts) h
      (c := .read (counterAddr A)) (d := b) nofun (congrArg Nat.succ size) (by rw [ht]; simp [answerRead])
    have rest := ih (s := report .dot (s.exchanged (.read (counterAddr A)) (bs.flatMap (answerRead 0) ++ ts)))
      ((h.exchanged _ _).report _) (A := counterNext A) (V := V ++ b)
      (by rw [next, hA, List.length_append, size, Nat.add_assoc]; rfl)
      (by
        simp only [List.length_cons, blocks] at hcount
        show bs.length = blocks ((p.last s.cfg.map).toNat + 1 - (counterNext A).toNat)
        rw [next, blocks]
        omega)
      (fun b' hb => hsize b' (List.mem_cons_of_mem b hb)) rfl
    have steps : 67 * (b :: bs).length = respLen (.read (counterAddr A)) + 2 + 67 * bs.length := by
      rw [List.length_cons, respLen, Config.readResp]
      omega
    rw [readLoop_of_le more, steps, runSteps_add one, proceed, block, rest, State.passed_cons, counterAddr_eq_addrAt hA,
      List.length_cons, sendsFrom_succ, List.length_append, size, List.flatten_cons, List.append_assoc]
    rfl

/-- `VerifyRange` from its start, against a device that answers with the blocks `bs` of the whole range. -/
theorem runSteps_verifyRange {s : State} (h : s.Fresh) {p : Pass} {img : Image} {bs : List (List Byte)} {ts : List Turn}
    (hrange : (p.expected img).length = (p.last s.cfg.map).toNat + 1 - (p.first s.cfg.map).toNat)
    (hcount : bs.length = blocks (p.expected img).length) (hsize : ∀ b ∈ bs, b.length = 64)
    (ht : s.turns = bs.flatMap (answerRead 0) ++ ts) :
    runSteps (67 * bs.length) (seqFinish (startVerifyRange p img s)) = .next (seqFinish (comparePass p bs.flatten img
      ((report .verifyStart s).passed (readSends s.cfg (p.first s.cfg.map) bs.length) bs.length ts))) := by
  have start := counterAt_toNat (p.first s.cfg.map)
  have pass := runSteps_readPass (h.report .verifyStart) (p := p) (A := counterAt (p.first s.cfg.map)) (V := []) (img := img)
    start (by rw [hcount, hrange, start]; rfl) hsize ht
  rw [List.nil_append, List.length_nil, sendsFrom_readSend] at pass
  exact pass

/-! ### The write pass (R132, R133) -/

/-- What a WRITE of the chunk at `off` in `app` sends, for the region that starts at `a`. -/
def writeSend (cfg : Config) (a : Addr) (app : List Byte) (off : Nat) : List Byte :=
  wireForm cfg (writeBytes cfg (addrAt a off) ((app.drop off).take 64))

theorem sendsFrom_writeSend (cfg : Config) (a : Addr) (app : List Byte) :
    sendsFrom (writeSend cfg a app) 0 (blocks app.length) = writeSends cfg a app := by
  simp [sendsFrom, writeSend, writeSends]

/-- The write pass from the head of its loop, `K` bytes written so far, against a device that answers with status 0x00: a
WRITE for each of the `n` chunks left, and then `CheckCrc`. -/
theorem runSteps_writePass {s : State} (h : s.Fresh) {A : BitVec 17} {K n : Nat} {img : Image} {ts : List Turn}
    (himg : img.app.length = s.cfg.map.appEnd.toNat + 1 - s.cfg.map.appStart.toNat)
    (hA : A.toNat = s.cfg.map.appStart.toNat + K) (hcount : n = blocks (img.app.length - K))
    (ht : s.turns = (List.replicate n (answer 0)).flatten ++ ts) :
    runSteps (3 * n) (seqFinish (writeLoop A K img s)) = .next (seqFinish (startCheckCrc img.crct (.flash img)
      (report .writeDone (s.passed (sendsFrom (writeSend s.cfg s.cfg.map.appStart img.app) K n) n ts)))) := by
  induction n generalizing s A K with
  | zero =>
    have all : img.app.length ≤ K := by
      simp only [blocks] at hcount
      omega
    have idle : s.passed [] 0 ts = s := by
      obtain rfl : s.turns = ts := ht
      exact s.passed_nil
    rw [writeLoop_of_ge all]
    simp [sendsFrom, idle]
  | succ n ih =>
    have more : K < img.app.length := by
      simp only [blocks] at hcount
      omega
    have last := s.cfg.map.appEnd.isLt
    have next : (counterNext A).toNat = A.toNat + 64 := counterNext_toNat (by omega)
    have one := runSteps_exchange_ok (k := .flashWrite A K img) (ts := (List.replicate n (answer 0)).flatten ++ ts) h
      (c := .write (counterAddr A) (chunkAt img.app K)) (d := []) (write_size_le (chunkAt_length_le _ _)) rfl ht
    have rest := ih (s := report .dot (s.exchanged (.write (counterAddr A) (chunkAt img.app K))
        ((List.replicate n (answer 0)).flatten ++ ts)))
      ((h.exchanged _ _).report _) (A := counterNext A) (K := K + 64) himg
      (by rw [next, hA, Nat.add_assoc]; rfl) (by simp only [blocks] at hcount ⊢; omega) rfl
    have steps : 3 * (n + 1) = respLen (.write (counterAddr A) (chunkAt img.app K)) + 2 + 3 * n := by
      rw [respLen, Config.writeResp]
      omega
    have sent : wireForm s.cfg (cmdBytes s.cfg (.write (counterAddr A) (chunkAt img.app K))) =
        writeSend s.cfg s.cfg.map.appStart img.app K := by
      rw [counterAddr_eq_addrAt hA]
      rfl
    rw [writeLoop_of_lt more, steps, runSteps_add one, proceed, Config.block, rest, State.passed_cons, sent, sendsFrom_succ]
    rfl

/-! ### The obligations -/

/-- Settles O24: the read pass over the application region from the first step on, and its comparison. -/
theorem verifyRuns : Obligations.VerifyRuns := by
  intro s addr img bs ts loaded hcount hsize h
  have fits := load_fits (map_wf h.wf) loaded
  have pass := runSteps_verifyRange (s := s.opened (bs.flatMap (answerRead 0) ++ ts)) (p := .application) (img := img)
    (ts := ts) (fresh_of_accepted h) fits.1 hcount hsize rfl
  rw [seqFinish_comparePass, Pass.expected] at pass
  refine (runSteps_of_accepted h rfl (exec_verify_of_load loaded) _).trans (pass.trans ?_)
  cases firstDifference img.app bs.flatten with
  | none => rfl
  | some i =>
    dsimp only
    rw [abort_eq]
    rfl

/-- `s` after FLASH's write pass of `img`, with the agenda `ts` left. -/
def State.written (s : State) (img : Image) (ts : List Turn) : State :=
  report .writeDone ((report (.byteCount img.app.length) (s.opened ts)).passed (writeSends s.cfg s.cfg.map.appStart img.app)
    (blocks img.app.length) ts)

theorem fresh_written {s : State} {w : BitVec 32} {ts ts' : List Turn} (h : Accepted s w ts) (img : Image) :
    (s.written img ts').Fresh :=
  ⟨h.wf, h.unbounded, rfl⟩

/-- FLASH from its first step to the end of the write pass. -/
theorem runSteps_flash_writePass {s : State} {addr : Addr} {img : Image} {ts : List Turn}
    (loaded : load s.cfg.map s.img = some img)
    (h : Accepted s (hostWord addr 0x7) (.seq :: ((List.replicate (blocks img.app.length) (answer 0)).flatten ++ ts))) :
    runSteps (3 * blocks img.app.length + 1) s =
      .next (seqFinish (startCheckCrc img.crct (.flash img) (s.written img ts))) := by
  have fits := load_fits (map_wf h.wf) loaded
  have pass := runSteps_writePass (img := img) (K := 0) (n := blocks img.app.length) (ts := ts)
    ((fresh_of_accepted h (ts' := (List.replicate (blocks img.app.length) (answer 0)).flatten ++ ts)).report
      (.byteCount img.app.length))
    fits.1 (counterAt_toNat _) rfl rfl
  rw [sendsFrom_writeSend] at pass
  exact (runSteps_of_accepted h rfl (exec_flash_of_load loaded) _).trans pass

/-- `s` after `CheckCrc` of FLASH, with the agenda `ts` left. -/
def State.checked (s : State) (img : Image) (ts : List Turn) : State :=
  (s.exchanged (.write s.cfg.map.crcStart img.crct) (answer 0 ++ ts)).exchanged .crc ts

/-- `CheckCrc` of FLASH, both exchanges answered with status 0x00, up to the start of the settings pass. -/
theorem runSteps_flash_checkCrc {s : State} (h : s.Fresh) {img : Image} {ts : List Turn} (size : img.crct.length = 64)
    (ht : s.turns = answer 0 ++ (answer 0 ++ ts)) :
    runSteps (3 + 3) (seqFinish (startCheckCrc img.crct (.flash img) s)) =
      .next (seqFinish (startVerifyRange .settings img (s.checked img ts))) := by
  have table := runSteps_exchange_ok (c := .write s.cfg.map.crcStart img.crct) (k := .crcTable (.flash img)) (d := []) h
    (write_size_le size.le) rfl ht
  have crc := runSteps_exchange_ok (s := s.exchanged (.write s.cfg.map.crcStart img.crct) (answer 0 ++ ts)) (c := .crc)
    (k := .crcStatus (.flash img)) (ts := ts) (d := []) (h.exchanged _ _) nofun rfl rfl
  rw [startCheckCrc_of_block size]
  exact (runSteps_add table 3).trans crc

/-- What FLASH has sent and reported when its settings pass begins. -/
theorem written_checked_eq (s : State) (img : Image) (ts ts' : List Turn) :
    (s.written img ts).checked img ts' = { s.opened ts' with
      txlog := s.txlog ++ writeSends s.cfg s.cfg.map.appStart img.app ++
        [wireForm s.cfg (writeBytes s.cfg s.cfg.map.crcStart img.crct), wireForm s.cfg [0x03, 0x02]],
      plog := s.plog ++ [.byteCount img.app.length] ++ List.replicate (blocks img.app.length) .dot ++ [.writeDone] } := by
  rw [List.append_cons (s.txlog ++ _)]
  rfl

/-- Settles O25: the write pass, the table WRITE, the CRC command, and the read pass over the settings with its comparison. -/
theorem flashRuns : Obligations.FlashRuns := by
  intro s addr img bs ts loaded hcount hsize h
  obtain ⟨-, size, settings⟩ := load_fits (map_wf h.wf) loaded
  have agenda : (List.replicate (blocks img.app.length + 2) (answer 0)).flatten ++ bs.flatMap (answerRead 0) ++ ts =
      (List.replicate (blocks img.app.length) (answer 0)).flatten ++
        (answer 0 ++ (answer 0 ++ (bs.flatMap (answerRead 0) ++ ts))) := by
    simp [List.replicate_add]
  have steps : 3 * (blocks img.app.length + 2) + 67 * bs.length + 1 =
      3 * blocks img.app.length + 1 + (3 + 3 + 67 * bs.length) := by omega
  rw [List.cons_append, List.cons_append, agenda] at h
  have written : (s.written img (answer 0 ++ (answer 0 ++ (bs.flatMap (answerRead 0) ++ ts)))).Fresh := fresh_written h img
  have checked := runSteps_flash_checkCrc written size rfl
  have verified := runSteps_verifyRange (s := State.checked _ img (bs.flatMap (answerRead 0) ++ ts)) (p := .settings)
    (ts := ts) ((written.exchanged _ _).exchanged _ _) settings hcount hsize rfl
  rw [seqFinish_comparePass, Pass.expected, written_checked_eq] at verified
  rw [written_checked_eq] at checked
  rw [steps, runSteps_add (runSteps_flash_writePass loaded h), runSteps_add checked, verified,
    List.append_cons _ Progress.writeDone [.verifyStart]]
  cases firstDifference img.nvm bs.flatten with
  | none => rfl
  | some i =>
    dsimp only
    rw [abort_eq]
    rfl

end Sys2Proof.Machine
end
